-- ==== Sys2Proof/Config.lean ====
section
/-! DEFINITION. The engine's implementation parameters (00_scope.md R4 to R7), fixed at the values the
spec fixes. There are no others (R7), and no value is left free. -/

namespace Sys2Proof

/-- XLEN: the width of a register, a data cell and a third operand (R5, decision D1). -/
abbrev Config.xlen : Nat := 32

/-- NREGS: the number of registers (R4). -/
abbrev Config.nregs : Nat := 8

/-- PC_REG: the index of the register that is the program counter (R4). -/
abbrev Config.pcReg : Fin Config.nregs := 7

/-- IMEM_SIZE: the number of cells of the instruction store (R4). -/
abbrev Config.imemSize : Nat := 1024

/-- DMEM_SIZE: the number of cells of the data store (R4). -/
abbrev Config.dmemSize : Nat := 1024

/-- NT_ADVANCE: whether a not-taken branch moves on to the next instruction (R6, decision D10: it
does not). -/
abbrev Config.ntAdvance : Bool := false

end Sys2Proof
end

