-- ==== Sys2Proof/Word.lean ====
section
/-! DEFINITION. The machine's words: register and data-cell values, instruction words, register
indices. -/

namespace Sys2Proof

/-- An element of IntX as it is stored (00_scope.md R8, R9): XLEN bits, two's complement. Its value
as a signed integer is `BitVec.toInt`. -/
abbrev Word := BitVec 32

/-- One instruction word, the content of one instruction cell (30_encoding.md R93, R95). -/
abbrev InstrWord := BitVec 43

/-- A register index, 0 to NREGS - 1 (30_encoding.md R91). -/
abbrev Reg := Fin 8

end Sys2Proof
end

