-- ==== Sys2Proof/Machine/Flags.lean ====
section
/-! DEFINITION. The machine has no flags and no condition codes (10_state.md R30): a conditional branch
compares a register with 0. Those six comparisons (44_ra_branches.md R201) stand here. -/

namespace Sys2Proof.Machine

/-- The six comparisons of the branches (44_ra_branches.md R201). -/
inductive Cond where
  | lt
  | le
  | gt
  | ge
  | eq
  | ne
  deriving DecidableEq, Repr

/-- `cond(v)`: v compared with 0 as a signed integer (44_ra_branches.md R201). -/
def Cond.holds (k : Cond) (v : Word) : Bool :=
  match k with
  | .lt => decide (v.toInt < 0)
  | .le => decide (v.toInt ≤ 0)
  | .gt => decide (v.toInt > 0)
  | .ge => decide (v.toInt ≥ 0)
  | .eq => decide (v.toInt = 0)
  | .ne => decide (v.toInt ≠ 0)

end Sys2Proof.Machine
end

