-- ==== Sys2Proof/Machine/Alu.lean ====
section
/-! DEFINITION. The signed-integer ALU (41_rr_io_arith.md section 1): exact results over the integers,
narrowed by `wrap`. -/

namespace Sys2Proof.Machine

/-- `wrap(v)`: the one element of IntX congruent to v modulo 2^XLEN (00_scope.md R8, decision D2). -/
def wrap (v : Int) : Word := BitVec.ofInt 32 v

/-- The adder of ADD, LDA, effective addresses and the pc (41_rr_io_arith.md R153, R157). -/
def aluAdd (m n : Word) : Word := wrap (m.toInt + n.toInt)

/-- The subtracter of SUB, minuend first (41_rr_io_arith.md R154, R157). -/
def aluSub (m n : Word) : Word := wrap (m.toInt - n.toInt)

/-- The multiplier of MUL (41_rr_io_arith.md R155, R157). -/
def aluMul (m n : Word) : Word := wrap (m.toInt * n.toInt)

/-- The divider of DIV, dividend first: none for the divisor 0, else the quotient rounded toward zero
and wrapped (41_rr_io_arith.md R156, R158, R159; decisions D3, D4). -/
def aluDiv (n d : Word) : Option Word :=
  if d.toInt = 0 then none else some (wrap (n.toInt.tdiv d.toInt))

end Sys2Proof.Machine
end

