-- ==== Sys2Proof/Machine/State.lean ====
section
/-! DEFINITION. The machine's state as plain data (10_state.md R47), the outcomes that are no next
state, and the state after reset (R48, R251). -/

namespace Sys2Proof.Machine

/-- A store of whole cells, `w` bits each: (address, value) pairs in canonical form (`Memory.wf` of
Machine/Ops.lean). An unlisted address reads as 0 (10_state.md R48). The spec has no bytes
(20_memory.md R67), so an entry is a whole cell (log entry 7). -/
abbrev Memory (w : Nat) := List (Nat × BitVec w)

/-- The run state (10_state.md R33); its 2-bit code is `RunState.code` of Machine/Ports.lean. -/
inductive RunState where
  | running
  | halted
  | faulted
  deriving DecidableEq, Repr

/-- The four run-time faults of the engine (60_exceptions.md R210 to R214). These are events of the
machine, which the fault latch records and a next state shows; they are not `Fault`. -/
inductive FaultKind where
  | instructionMemoryFault
  | dataMemoryFault
  | divideByZero
  | noSuchInstruction
  deriving DecidableEq, Repr

/-- The state of the engine: exactly the tuple of 10_state.md R47. -/
@[ext]
structure State where
  /-- `x[0..7]`; `x[7]` is the program counter (R20, R25) -/
  x : Vector Word 8
  /-- the instruction store (20_memory.md R61) -/
  imem : Memory 43
  /-- the data store (20_memory.md R62) -/
  dmem : Memory 32
  /-- `run_state` (R33, R34) -/
  runState : RunState
  /-- the fault latch `fault_kind`; `none` is the latch's own None (R36) -/
  faultKind : Option FaultKind
  /-- the input values not yet taken, the next first (R40) -/
  input : List Word
  /-- the values written by OUT, the oldest first (R43) -/
  output : List Word
  deriving DecidableEq, Repr

/-- Why no step happens. Raised by `step` alone, before any fetch, and only in the two terminal
states (40_execution_cycle.md R131, decision D13); no run-time fault of the spec is here, because the
spec describes the state each of them leaves. Safe: the hardware takes no step there either. -/
inductive Fault where
  /-- the engine is in Halted: the run is over (R131, R143); raised by `step`; safe -/
  | engineHalted
  /-- the engine is in Faulted: the run is over (R131, R143); raised by `step`; safe -/
  | engineFaulted
  deriving DecidableEq, Repr

/-- Why an instruction has no meaning. -/
inductive Refusal where
  /-- an instruction that the model does not cover; raised by no arm of `exec`; safe -/
  | notModelled (mnemonic : String)
  /-- the third operand of ADD, SUB, MUL or DIV is no register index: the step ends `refuse`, and
  the spec gives it "no next state, no fault kind and no value" (30_encoding.md R110,
  40_execution_cycle.md R142); raised by `execAdd`, `execSub`, `execMul` and `execDiv`; safe -/
  | operandNotRegister
  deriving DecidableEq, Repr

/-- The state right after reset (10_state.md R48, 70_reset_and_hazards.md R251): registers 0 (so the
pc is 0), every data cell 0, every instruction cell `HALT 0 0 0` (the word 0), Running, no fault, no
output. The input stream is the host's; that State.reset has none waiting is a DESIGN CHOICE (log
entry 1), and `setup` of Machine/Ports.lean gives the reset with any input. -/
def State.reset : State where
  x := Vector.replicate 8 0
  imem := []
  dmem := []
  runState := .running
  faultKind := none
  input := []
  output := []

end Sys2Proof.Machine
end

