-- ==== Sys2Proof/Machine/Ops.lean ====
section
/-! DEFINITION. The named operations over registers, stores, streams and the run state (00_scope.md
R10): the one place where each is read or written. Taking a fault is `raise`; there is no return from
one (60_exceptions.md R224). -/

namespace Sys2Proof.Machine

/-! ### Stores -/

/-- The canonical form of a store of `size` cells: addresses strictly rising and below `size`, no
entry equal to the 0 that an unlisted address reads as. -/
abbrev Memory.wf {w : Nat} (size : Nat) (m : Memory w) : Prop :=
  m.Pairwise (fun p q => p.1 < q.1) ∧ ∀ p ∈ m, p.1 < size ∧ p.2 ≠ 0#w

/-- The value of a cell; 0 if nothing is listed (10_state.md R48). -/
def Memory.read {w : Nat} : Memory w → Nat → BitVec w
  | [], _ => 0#w
  | (b, u) :: m, k => if b = k then u else Memory.read m k

/-- Put an entry in its place among rising addresses. -/
def Memory.insert {w : Nat} : Memory w → Nat → BitVec w → Memory w
  | [], k, v => [(k, v)]
  | (b, u) :: m, k, v => if k < b then (k, v) :: (b, u) :: m else (b, u) :: Memory.insert m k v

/-- Write a cell; writing the 0 that an unlisted cell reads as leaves it unlisted. -/
def Memory.write {w : Nat} (m : Memory w) (k : Nat) (v : BitVec w) : Memory w :=
  let rest := m.filter (fun p => p.1 != k)
  if v = 0#w then rest else Memory.insert rest k v

/-- An address is valid for a bank of `size` cells: 0 <= addr < size, as a signed integer
(20_memory.md R63). -/
def inBounds (size : Nat) (addr : Word) : Bool := decide (0 ≤ addr.toInt ∧ addr.toInt < size)

/-- The cell that a valid address names. An address is never reduced modulo a capacity
(20_memory.md R63); this is used only behind `inBounds`. -/
def cellIndex (addr : Word) : Nat := addr.toInt.toNat

/-! ### Registers -/

/-- `x[r]` (10_state.md R20). No register is hard-wired (R21). -/
def State.reg (s : State) (r : Reg) : Word := s.x.get r

/-- `x[r] <- v` (10_state.md R20, R22). -/
def State.setReg (s : State) (r : Reg) (v : Word) : State := { s with x := s.x.set r v }

/-- `pc`, which is `x[7]` (10_state.md R25). -/
def State.pc (s : State) : Word := s.reg Config.pcReg

/-- `pc <- v` (10_state.md R25). -/
def State.setPc (s : State) (v : Word) : State := s.setReg Config.pcReg v

/-- The engine's pc-advance: `pc <- wrap(pc + 1)`, reading `x[7]` as the handler left it
(40_execution_cycle.md R136). -/
def State.advance (s : State) : State := s.setPc (aluAdd s.pc 1)

/-! ### The run state -/

/-- `raise F`: the engine's exception entry. `run_state` becomes Faulted and the latch takes F;
nothing else happens, no register (not the pc either), no cell, no handler (60_exceptions.md R218). -/
def State.raise (s : State) (f : FaultKind) : State :=
  { s with runState := .faulted, faultKind := some f }

/-- `halt`: `run_state` becomes Halted (41_rr_io_arith.md R150). -/
def State.halt (s : State) : State := { s with runState := .halted }

/-! ### Access primitives -/

/-- `Fetch(addr)` (20_memory.md R66, decision D11). -/
def fetchWord (s : State) (addr : Word) : Except FaultKind InstrWord :=
  if inBounds Config.imemSize addr then .ok (s.imem.read (cellIndex addr))
  else .error .instructionMemoryFault

/-- `MemRead(addr, 1)` (20_memory.md R64). -/
def memRead (s : State) (addr : Word) : Except FaultKind Word :=
  if inBounds Config.dmemSize addr then .ok (s.dmem.read (cellIndex addr))
  else .error .dataMemoryFault

/-- `MemWrite(addr, 1, v)` (20_memory.md R65). -/
def memWrite (s : State) (addr v : Word) : Except FaultKind State :=
  if inBounds Config.dmemSize addr then .ok { s with dmem := s.dmem.write (cellIndex addr) v }
  else .error .dataMemoryFault

/-- `In()`: the next input value and the state without it; none while no value is available
(10_state.md R41). -/
def takeInput (s : State) : Option (Word × State) :=
  match s.input with
  | [] => none
  | v :: rest => some (v, { s with input := rest })

/-- `Out(v)` (10_state.md R43). -/
def putOutput (s : State) (v : Word) : State := { s with output := s.output ++ [v] }

/-! ### Ends of an instruction -/

/-- What one instruction does. -/
abbrev Result := Host.Outcome State Fault Refusal

/-- The handler of a non-branch opcode succeeded with state s: the engine advances the pc
(40_execution_cycle.md R136). -/
def succeed (s : State) : Result := .next s.advance

/-- The handler succeeded by `x[a] <- v`; the advance applies to the written value if `a` is 7
(10_state.md R28). -/
def succeedWith (s : State) (a : Reg) (v : Word) : Result := succeed (s.setReg a v)

/-- The handler or the fetch faulted: the step ends in Faulted, the pc not advanced
(40_execution_cycle.md R135, 60_exceptions.md R218). -/
def faultWith (s : State) (f : FaultKind) : Result := .next (s.raise f)

/-- The step ends `blocked`: the state is exactly as before, and the same instruction is attempted
again by the next step (40_execution_cycle.md R141, decision D15; log entry 2). -/
def blocked (s : State) : Result := .next s

end Sys2Proof.Machine
end

