-- ==== Sys2Proof/Syntax.lean ====
section
/-! DEFINITION. The instructions: one constructor for each of the 17 opcodes (30_encoding.md R96),
each with the three operands of the one format (R90, R92). -/

namespace Sys2Proof

/-- An instruction `(op, a, b, c)` (30_encoding.md R90). The first and second operands `a`, `b` are
register indices for every opcode, used or not (R91); the third, `c`, is any element of IntX here,
and `Instr.wellFormed` says which values the loader accepts (R109). Operands that an opcode does not
use are kept, so that a word is never changed by decoding it. -/
inductive Instr where
  | halt (a b : Reg) (c : Word)
  | inp (a b : Reg) (c : Word)
  | out (a b : Reg) (c : Word)
  | add (a b : Reg) (c : Word)
  | sub (a b : Reg) (c : Word)
  | mul (a b : Reg) (c : Word)
  | div (a b : Reg) (c : Word)
  | ld (a b : Reg) (c : Word)
  | st (a b : Reg) (c : Word)
  | lda (a b : Reg) (c : Word)
  | ldc (a b : Reg) (c : Word)
  | jlt (a b : Reg) (c : Word)
  | jle (a b : Reg) (c : Word)
  | jgt (a b : Reg) (c : Word)
  | jge (a b : Reg) (c : Word)
  | jeq (a b : Reg) (c : Word)
  | jne (a b : Reg) (c : Word)
  deriving DecidableEq, Repr

end Sys2Proof
end

