-- ==== Sys2Proof/WellFormed.lean ====
section
/-! DEFINITION. Addressing-mode classes and well-formed instructions (30_encoding.md R97 to R100,
R109). -/

namespace Sys2Proof

/-- The three addressing-mode classes (30_encoding.md section 2). -/
inductive AddrClass where
  /-- register-register (R97) -/
  | rr
  /-- register-memory (R98) -/
  | rm
  /-- register-immediate and branch (R99) -/
  | ra
  deriving DecidableEq, Repr

/-- The class of an instruction (30_encoding.md R96, R97, R98, R99). -/
def Instr.addrClass : Instr → AddrClass
  | .halt _ _ _ => .rr
  | .inp _ _ _ => .rr
  | .out _ _ _ => .rr
  | .add _ _ _ => .rr
  | .sub _ _ _ => .rr
  | .mul _ _ _ => .rr
  | .div _ _ _ => .rr
  | .ld _ _ _ => .rm
  | .st _ _ _ => .rm
  | .lda _ _ _ => .ra
  | .ldc _ _ _ => .ra
  | .jlt _ _ _ => .ra
  | .jle _ _ _ => .ra
  | .jgt _ _ _ => .ra
  | .jge _ _ _ => .ra
  | .jeq _ _ _ => .ra
  | .jne _ _ _ => .ra

/-- The three operands of an instruction, in order (30_encoding.md R90). -/
def Instr.operands : Instr → Reg × Reg × Word
  | .halt a b c => (a, b, c)
  | .inp a b c => (a, b, c)
  | .out a b c => (a, b, c)
  | .add a b c => (a, b, c)
  | .sub a b c => (a, b, c)
  | .mul a b c => (a, b, c)
  | .div a b c => (a, b, c)
  | .ld a b c => (a, b, c)
  | .st a b c => (a, b, c)
  | .lda a b c => (a, b, c)
  | .ldc a b c => (a, b, c)
  | .jlt a b c => (a, b, c)
  | .jle a b c => (a, b, c)
  | .jgt a b c => (a, b, c)
  | .jge a b c => (a, b, c)
  | .jeq a b c => (a, b, c)
  | .jne a b c => (a, b, c)

/-- A signed value is a register index: 0 <= v < NREGS (30_encoding.md R101, R109). -/
def isRegIndex (v : Int) : Bool := decide (0 ≤ v ∧ v < Config.nregs)

/-- Well-formed (30_encoding.md R109): the third operand of the RR class is a register index, for all
seven opcodes of the class whether they use it or not (conflict C7). The ranges of `a` and `b` are in
their type. -/
def Instr.wellFormed (i : Instr) : Bool :=
  match i.addrClass with
  | .rr => isRegIndex i.operands.2.2.toInt
  | .rm => true
  | .ra => true

end Sys2Proof
end

