-- ==== Sys2Proof/Machine/Operands.lean ====
section
/-! DEFINITION. The uses of the second and third operand (30_encoding.md R101): effective address and
register index. -/

namespace Sys2Proof.Machine

/-- The effective address `wrap(x[b] + c)` of LD, ST, LDA and the branches (20_memory.md R78,
decision D5). -/
def effAddr (s : State) (b : Reg) (c : Word) : Word := aluAdd (s.reg b) c

/-- The register that the third operand of ADD, SUB, MUL and DIV names: c itself if 0 <= c < NREGS
(30_encoding.md R101, R109). -/
def regOperand (c : Word) : Option Reg :=
  if isRegIndex c.toInt then some (Fin.ofNat 8 c.toInt.toNat) else none

/-- The two-source form of ADD, SUB, MUL and DIV: the step ends `refuse` if c is no register index
(30_encoding.md R110, decision D9), else the handler gets `x[b]` and `x[c]`, both read before anything
is written (00_scope.md R10). -/
def withSources (s : State) (b : Reg) (c : Word) (handler : Word → Word → Result) : Result :=
  match regOperand c with
  | some r => handler (s.reg b) (s.reg r)
  | none => .refused .operandNotRegister

end Sys2Proof.Machine
end

