-- ==== Sys2Proof/Machine/Branch.lean ====
section
/-! DEFINITION. The six conditional branches (44_ra_branches.md). -/

namespace Sys2Proof.Machine

/-- The branches' one handler (44_ra_branches.md R190): the target is tested against the
instruction-store bounds before the condition (R191); taken, the pc is the target exactly (R193); not
taken, nothing changes (R192, NT_ADVANCE = false). The engine adds nothing afterwards
(40_execution_cycle.md R137). -/
def branchOn (k : Cond) (a b : Reg) (c : Word) (s : State) : Result :=
  let target := effAddr s b c
  if inBounds Config.imemSize target then
    if k.holds (s.reg a) then .next (s.setPc target)
    else if Config.ntAdvance then .next s.advance
    else .next s
  else faultWith s .instructionMemoryFault

/-- JLT (44_ra_branches.md R194). -/
def execJlt (a b : Reg) (c : Word) (s : State) : Result := branchOn .lt a b c s

/-- JLE (44_ra_branches.md R195). -/
def execJle (a b : Reg) (c : Word) (s : State) : Result := branchOn .le a b c s

/-- JGT (44_ra_branches.md R196). -/
def execJgt (a b : Reg) (c : Word) (s : State) : Result := branchOn .gt a b c s

/-- JGE (44_ra_branches.md R197). -/
def execJge (a b : Reg) (c : Word) (s : State) : Result := branchOn .ge a b c s

/-- JEQ (44_ra_branches.md R198). -/
def execJeq (a b : Reg) (c : Word) (s : State) : Result := branchOn .eq a b c s

/-- JNE (44_ra_branches.md R199). -/
def execJne (a b : Reg) (c : Word) (s : State) : Result := branchOn .ne a b c s

end Sys2Proof.Machine
end

