-- ==== Sys2Proof/Machine/RegImm.lean ====
section
/-! DEFINITION. The non-branch members of the register-immediate class: LDA, LDC (43_ra_immediate.md). -/

namespace Sys2Proof.Machine

/-- LDA (43_ra_immediate.md R180): `x[a] <- wrap(x[b] + c)`, without a bounds test. -/
def execLda (a b : Reg) (c : Word) (s : State) : Result := succeedWith s a (effAddr s b c)

/-- LDC (43_ra_immediate.md R181): `x[a] <- c`; b is not used. -/
def execLdc (a _b : Reg) (c : Word) (s : State) : Result := succeedWith s a c

end Sys2Proof.Machine
end

