-- ==== Sys2Proof/Machine/RegMem.lean ====
section
/-! DEFINITION. The register-memory class: LD, ST (42_rm_load_store.md). -/

namespace Sys2Proof.Machine

/-- LD (42_rm_load_store.md R171): `x[a] <- DMem[wrap(x[b] + c)]`; on the fault `x[a]` is not
written (decision D24). -/
def execLd (a b : Reg) (c : Word) (s : State) : Result :=
  match memRead s (effAddr s b c) with
  | .ok v => succeedWith s a v
  | .error f => faultWith s f

/-- ST (42_rm_load_store.md R172): `DMem[wrap(x[b] + c)] <- x[a]`; on the fault no cell changes. -/
def execSt (a b : Reg) (c : Word) (s : State) : Result :=
  match memWrite s (effAddr s b c) (s.reg a) with
  | .ok s' => succeed s'
  | .error f => faultWith s f

end Sys2Proof.Machine
end

