-- ==== Sys2Proof/Machine/RegReg.lean ====
section
/-! DEFINITION. The register-register class: HALT, IN, OUT, ADD, SUB, MUL, DIV (41_rr_io_arith.md). -/

namespace Sys2Proof.Machine

/-- HALT (41_rr_io_arith.md R150): Halted, the pc not advanced, the operands ignored. -/
def execHalt (_a _b : Reg) (_c : Word) (s : State) : Result := .next s.halt

/-- IN (41_rr_io_arith.md R151): the next input value into `x[a]`; blocked while there is none. -/
def execIn (a _b : Reg) (_c : Word) (s : State) : Result :=
  match takeInput s with
  | some (v, s') => succeedWith s' a v
  | none => blocked s

/-- OUT (41_rr_io_arith.md R152): `x[a]` to the output stream. -/
def execOut (a _b : Reg) (_c : Word) (s : State) : Result := succeed (putOutput s (s.reg a))

/-- ADD (41_rr_io_arith.md R153). -/
def execAdd (a b : Reg) (c : Word) (s : State) : Result :=
  withSources s b c fun m n => succeedWith s a (aluAdd m n)

/-- SUB (41_rr_io_arith.md R154). -/
def execSub (a b : Reg) (c : Word) (s : State) : Result :=
  withSources s b c fun m n => succeedWith s a (aluSub m n)

/-- MUL (41_rr_io_arith.md R155). -/
def execMul (a b : Reg) (c : Word) (s : State) : Result :=
  withSources s b c fun m n => succeedWith s a (aluMul m n)

/-- DIV (41_rr_io_arith.md R156): DivideByZero for the divisor 0, before any write. -/
def execDiv (a b : Reg) (c : Word) (s : State) : Result :=
  withSources s b c fun n d =>
    match aluDiv n d with
    | some q => succeedWith s a q
    | none => faultWith s .divideByZero

end Sys2Proof.Machine
end

