-- ==== Sys2Proof/Machine/Dispatch.lean ====
section
/-! DEFINITION. Dispatch: one handler per opcode (40_execution_cycle.md R134). -/

namespace Sys2Proof.Machine

/-- What one instruction does to the state, the pc-advance included (40_execution_cycle.md R130). -/
def exec (i : Instr) (s : State) : Host.Outcome State Fault Refusal :=
  match i with
  | .halt a b c => Sys2Proof.Machine.execHalt a b c s
  | .inp a b c => Sys2Proof.Machine.execIn a b c s
  | .out a b c => Sys2Proof.Machine.execOut a b c s
  | .add a b c => Sys2Proof.Machine.execAdd a b c s
  | .sub a b c => Sys2Proof.Machine.execSub a b c s
  | .mul a b c => Sys2Proof.Machine.execMul a b c s
  | .div a b c => Sys2Proof.Machine.execDiv a b c s
  | .ld a b c => Sys2Proof.Machine.execLd a b c s
  | .st a b c => Sys2Proof.Machine.execSt a b c s
  | .lda a b c => Sys2Proof.Machine.execLda a b c s
  | .ldc a b c => Sys2Proof.Machine.execLdc a b c s
  | .jlt a b c => Sys2Proof.Machine.execJlt a b c s
  | .jle a b c => Sys2Proof.Machine.execJle a b c s
  | .jgt a b c => Sys2Proof.Machine.execJgt a b c s
  | .jge a b c => Sys2Proof.Machine.execJge a b c s
  | .jeq a b c => Sys2Proof.Machine.execJeq a b c s
  | .jne a b c => Sys2Proof.Machine.execJne a b c s

end Sys2Proof.Machine
end

