-- ==== Sys2Proof/Decode.lean ====
section
/-! DEFINITION. The decoder of instruction words, and the encoder (30_encoding.md R93, R94, R96, R106,
R121). -/

namespace Sys2Proof

/-- Why a word is no instruction. Raised by `decode` alone; safe: the engine itself raises
NoSuchInstruction for such a word (30_encoding.md R106). -/
inductive Reject where
  /-- the tag names no handler: 17 to 31 (30_encoding.md R106) -/
  | unknownTag (tag : BitVec 5)
  deriving DecidableEq, Repr

/-- `op = w[42:38]` (30_encoding.md R94). -/
def opField (w : InstrWord) : BitVec 5 := w.extractLsb' 38 5

/-- `a = w[37:35]`, unsigned (30_encoding.md R94). -/
def aField (w : InstrWord) : Reg := (w.extractLsb' 35 3).toFin

/-- `b = w[34:32]`, unsigned (30_encoding.md R94). -/
def bField (w : InstrWord) : Reg := (w.extractLsb' 32 3).toFin

/-- `c = sext_32(w[31:0])`, neither scaled nor shifted (30_encoding.md R94). -/
def cField (w : InstrWord) : Word := w.extractLsb' 0 32

/-- The instruction with a given tag and operands (30_encoding.md R96), or the rejection of an unknown
tag (R106). -/
def instrOfTag (tag : BitVec 5) (a b : Reg) (c : Word) : Except Reject Instr :=
  match tag.toNat with
  | 0 => .ok (.halt a b c)
  | 1 => .ok (.inp a b c)
  | 2 => .ok (.out a b c)
  | 3 => .ok (.add a b c)
  | 4 => .ok (.sub a b c)
  | 5 => .ok (.mul a b c)
  | 6 => .ok (.div a b c)
  | 7 => .ok (.ld a b c)
  | 8 => .ok (.st a b c)
  | 9 => .ok (.lda a b c)
  | 10 => .ok (.ldc a b c)
  | 11 => .ok (.jlt a b c)
  | 12 => .ok (.jle a b c)
  | 13 => .ok (.jgt a b c)
  | 14 => .ok (.jge a b c)
  | 15 => .ok (.jeq a b c)
  | 16 => .ok (.jne a b c)
  | _ => .error (.unknownTag tag)

/-- Decoding an instruction word (30_encoding.md R94). Total: a word is an instruction or an unknown
tag (R107). An instruction that the loader would not accept decodes too (R110): its meaning says what
becomes of it. -/
def decode (w : InstrWord) : Except Reject Instr :=
  instrOfTag (opField w) (aField w) (bField w) (cField w)

/-- The tag of an instruction (30_encoding.md R96, decision D7). -/
def tagOf : Instr → Nat
  | .halt _ _ _ => 0
  | .inp _ _ _ => 1
  | .out _ _ _ => 2
  | .add _ _ _ => 3
  | .sub _ _ _ => 4
  | .mul _ _ _ => 5
  | .div _ _ _ => 6
  | .ld _ _ _ => 7
  | .st _ _ _ => 8
  | .lda _ _ _ => 9
  | .ldc _ _ _ => 10
  | .jlt _ _ _ => 11
  | .jle _ _ _ => 12
  | .jgt _ _ _ => 13
  | .jge _ _ _ => 14
  | .jeq _ _ _ => 15
  | .jne _ _ _ => 16

/-- Encoding a tuple: `w = op * 2^38 + a * 2^35 + b * 2^32 + (c mod 2^32)` (30_encoding.md R121). -/
def encodeTuple (op : Nat) (a b : Reg) (c : Word) : InstrWord :=
  BitVec.ofNat 43 (op * 2 ^ 38 + a.val * 2 ^ 35 + b.val * 2 ^ 32 + c.toNat)

/-- The word of an instruction (30_encoding.md R121). -/
def encode (i : Instr) : InstrWord :=
  encodeTuple (tagOf i) i.operands.1 i.operands.2.1 i.operands.2.2

/-- The instruction word that a number stands for: its low 43 bits. An instruction is one word, the
cell and the load port hold 43 bits (10_state.md R46, 30_encoding.md R93), so bits above have no place
(DESIGN CHOICE, log entry 9). -/
def wordOfNat (w : Nat) : InstrWord := BitVec.ofNat 43 w

/-- What the decoder reads from an opcode-table row's word, numbered from bit 0 of its one word. The
table's width in whole bytes changes nothing: every bit above it is 0. -/
def decodeTableWord (_nbits w : Nat) : Option Instr :=
  match decode (wordOfNat w) with
  | .ok i => some i
  | .error _ => none

end Sys2Proof
end

