-- ==== Sys2Proof/Machine/Fetch.lean ====
section
/-! DEFINITION. Fetch and decode of the step (40_execution_cycle.md R130, R132, R134). -/

namespace Sys2Proof.Machine

/-- The instruction at the pc, or the fault of its fetch or of its dispatch: InstructionMemoryFault if
the pc is out of range (40_execution_cycle.md R132), NoSuchInstruction if the tag has no handler
(R134, 30_encoding.md R106). -/
def fetchInstr (s : State) : Except FaultKind Instr :=
  match fetchWord s s.pc with
  | .error f => .error f
  | .ok w =>
    match decode w with
    | .error (.unknownTag _) => .error .noSuchInstruction
    | .ok i => .ok i

/-- s with a word in the cell that the pc names, which is where the next step fetches; s itself if the
pc names no cell (log entry 8). -/
def storeAtPc (s : State) (w : InstrWord) : State :=
  if inBounds Config.imemSize s.pc then { s with imem := s.imem.write (cellIndex s.pc) w } else s

end Sys2Proof.Machine
end

