-- ==== Sys2Proof/Machine/Step.lean ====
section
/-! DEFINITION. The step (40_execution_cycle.md R130, R131). -/

namespace Sys2Proof.Machine

/-- One step: it happens only while Running (40_execution_cycle.md R131); it fetches and decodes at the
pc, faults or runs the instruction (R130). In Halted and in Faulted there is no step. -/
def step (s : State) : Host.Outcome State Fault Refusal :=
  match s.runState with
  | .halted => .fault .engineHalted
  | .faulted => .fault .engineFaulted
  | .running =>
    match fetchInstr s with
    | .ok i => exec i s
    | .error f => faultWith s f

/-- s with the instruction word w (its low 43 bits) in the cell that the next step fetches. Of a
Running state with the pc in range, the next step fetches and runs exactly it. -/
def State.withFetchWord (s : State) (_nbits w : Nat) : State := storeAtPc s (wordOfNat w)

end Sys2Proof.Machine
end

