-- ==== Sys2Proof/Machine/Ports.lean ====
section
/-! DEFINITION. The engine's ports as the host uses them (10_state.md R46, 70_reset_and_hazards.md R268):
reset, load port, input, status. No rule of the instructions depends on them. -/

namespace Sys2Proof.Machine

/-- The 2-bit code of `run_state`; 3 never occurs (10_state.md R34, decision D12). -/
def RunState.code : RunState → BitVec 2
  | .running => 0
  | .halted => 1
  | .faulted => 2

/-- The 3-bit code of `fault_kind`; 5 to 7 never occur (10_state.md R36, 60_exceptions.md R215). -/
def faultCode : Option FaultKind → BitVec 3
  | none => 0
  | some .instructionMemoryFault => 1
  | some .dataMemoryFault => 2
  | some .divideByZero => 3
  | some .noSuchInstruction => 4

/-- The `run_state` output port (10_state.md R46). -/
def runStatePort (s : State) : BitVec 2 := s.runState.code

/-- The `fault_kind` output port (10_state.md R46). -/
def faultKindPort (s : State) : BitVec 3 := faultCode s.faultKind

/-- `rst`: every piece of state takes its value after setup, whatever it held before
(70_reset_and_hazards.md R250, R251, R254). The input stream is the host's: `inp` is what it presents
(10_state.md R48). -/
def setup (inp : List Word) : State := { State.reset with input := inp }

/-- The load port `ld_we`, `ld_addr`, `ld_data`: one word into one instruction cell, nothing else
(10_state.md R46, 70_reset_and_hazards.md R256). The host uses it after reset and before `start`
only (R255). -/
def loadCell (s : State) (addr : BitVec 10) (data : InstrWord) : State :=
  { s with imem := s.imem.write addr.toNat data }

/-- Words into consecutive instruction cells from address k on (70_reset_and_hazards.md R256). -/
def loadWords (s : State) (k : Nat) : List InstrWord → State
  | [] => s
  | w :: ws => loadWords (loadCell s (BitVec.ofNat 10 k) w) (k + 1) ws

/-- The host appends values to the end of `input`, at any moment (10_state.md R41,
70_reset_and_hazards.md R268). -/
def supplyInput (s : State) (vs : List Word) : State := { s with input := s.input ++ vs }

/-- `in_valid`: the head of `input` is available (10_state.md R46). -/
def inValid (s : State) : Bool := !s.input.isEmpty

/-- `in_data`: the head of `input`, while `in_valid` (10_state.md R46). -/
def inData (s : State) : Option Word := s.input.head?

end Sys2Proof.Machine
end

