-- ==== Sys2Proof/Machine/Loader.lean ====
section
/-! DEFINITION. The host's loader, as the contract of the boot (30_encoding.md section 7,
70_reset_and_hazards.md section 2): program text, the checks on it, and the image it writes. It is no
part of the engine (00_scope.md R3 (a)); it says which images a run starts from. -/

namespace Sys2Proof.Machine

/-- The load-time faults (30_encoding.md R119, 60_exceptions.md R216). Raised by `loadProgram` alone,
before any step; they have no code in the fault latch. Which of two faults of one text is named is a
DESIGN CHOICE (log entry 11). -/
inductive LoadFault where
  /-- a mnemonic that is none of the 17 (R114) -/
  | unknownMnemonic
  /-- a register operand outside 0 to NREGS - 1 (R116 (b), (c)) -/
  | operandNotRegister
  /-- an integer token that is no integer, or outside IntX (R115, decision D20) -/
  | malformedInteger
  /-- a record with fewer than three integers at the end of the text (R119, decision D21) -/
  | truncatedRecord
  /-- more than IMEM_SIZE records (R119, 70_reset_and_hazards.md R258, decision D19) -/
  | tooManyRecords
  deriving DecidableEq, Repr

/-- The mnemonics and their instructions (30_encoding.md R96, R114). -/
def mnemonicTable : List (String × (Reg → Reg → Word → Instr)) :=
  [("HALT", .halt), ("IN", .inp), ("OUT", .out), ("ADD", .add), ("SUB", .sub), ("MUL", .mul),
   ("DIV", .div), ("LD", .ld), ("ST", .st), ("LDA", .lda), ("LDC", .ldc), ("JLT", .jlt),
   ("JLE", .jle), ("JGT", .jgt), ("JGE", .jge), ("JEQ", .jeq), ("JNE", .jne)]

/-- The instruction of a mnemonic: an exact, case-sensitive match of the whole token (30_encoding.md
R114, R120). -/
def mnemonicLookup (name : List Char) : Option (Reg → Reg → Word → Instr) :=
  (mnemonicTable.find? fun p => p.1.toList == name).map (·.2)

/-- The text cut at white space, newlines included, into its tokens (30_encoding.md R113). `cur` is the
token being read. The white-space characters are a DESIGN CHOICE (log entry 10). -/
def tokensFrom (cur : List Char) : List Char → List (List Char)
  | [] => if cur.isEmpty then [] else [cur]
  | ch :: rest =>
    if ch.isWhitespace then
      if cur.isEmpty then tokensFrom [] rest else cur :: tokensFrom [] rest
    else tokensFrom (cur ++ [ch]) rest

/-- The tokens of a program text (30_encoding.md R113). -/
def tokens (text : String) : List (List Char) := tokensFrom [] text.toList

/-- Decimal digits, most significant first, after those that gave `acc`. -/
def digitsFrom (acc : Nat) : List Char → Option Nat
  | [] => some acc
  | ch :: rest => if ch.isDigit then digitsFrom (10 * acc + (ch.toNat - '0'.toNat)) rest else none

/-- The value of an optional `-` before one or more decimal digits (30_encoding.md R115). -/
def signedDecimal : List Char → Option Int
  | [] => none
  | ['-'] => none
  | '-' :: ds => (digitsFrom 0 ds).map fun (n : Nat) => -(n : Int)
  | ds => (digitsFrom 0 ds).map fun (n : Nat) => (n : Int)

/-- An integer token: a signed decimal with its value in IntX (30_encoding.md R115, decision D20). -/
def intToken (tok : List Char) : Option Int :=
  match signedDecimal tok with
  | some v => if -2 ^ 31 ≤ v ∧ v ≤ 2 ^ 31 - 1 then some v else none
  | none => none

/-- The loader's checks (a) to (c) on one record (30_encoding.md R116): the mnemonic, the first and
second operand, and the third operand of the RR class. -/
def assembleRecord (name ta tb tc : List Char) : Except LoadFault Instr :=
  match mnemonicLookup name with
  | none => .error .unknownMnemonic
  | some mk =>
    match intToken ta, intToken tb, intToken tc with
    | some a, some b, some c =>
      let i := mk (Fin.ofNat 8 a.toNat) (Fin.ofNat 8 b.toNat) (wrap c)
      if isRegIndex a && isRegIndex b && i.wellFormed then .ok i else .error .operandNotRegister
    | _, _, _ => .error .malformedInteger

/-- The records of a token stream in order, or the first record's fault (30_encoding.md R113, R116,
R119). -/
def assemble : List (List Char) → Except LoadFault (List Instr)
  | [] => .ok []
  | name :: ta :: tb :: tc :: rest =>
    match assembleRecord name ta tb tc with
    | .error f => .error f
    | .ok i =>
      match assemble rest with
      | .error f => .error f
      | .ok is => .ok (i :: is)
  | name :: _ =>
    match mnemonicLookup name with
    | none => .error .unknownMnemonic
    | some _ => .error .truncatedRecord

/-- The instructions of a program text, at most IMEM_SIZE (30_encoding.md R116, 70_reset_and_hazards.md
R258). -/
def loadProgram (text : String) : Except LoadFault (List Instr) :=
  match assemble (tokens text) with
  | .error f => .error f
  | .ok is => if is.length ≤ Config.imemSize then .ok is else .error .tooManyRecords

/-- The boot (70_reset_and_hazards.md R255): reset, the k-th record into cell k (30_encoding.md R117),
and the state in which the host signals `start`; on a load-time fault there is no run (R262). -/
def boot (text : String) (inp : List Word) : Except LoadFault State :=
  match loadProgram text with
  | .error f => .error f
  | .ok is => .ok (loadWords (setup inp) 0 (is.map encode))

end Sys2Proof.Machine
end

