-- ==== Sys2Proof/Safety.lean ====
section
/-! DEFINITION. The terms the statements use: well-formed states and images, runs, and what an
instruction leaves unchanged. -/

namespace Sys2Proof.Machine

/-! ### States and images -/

/-- The invariant of every state: both stores in canonical form within their 1024 cells (20_memory.md
R61, R62), and the fault latch holds a kind exactly in Faulted (10_state.md R36). -/
abbrev Inv (s : State) : Prop :=
  Memory.wf Config.imemSize s.imem ∧ Memory.wf Config.dmemSize s.dmem ∧
    (s.faultKind = none ↔ s.runState ≠ .faulted)

/-- A cell holds a well-formed instruction (30_encoding.md R109). -/
def cellWellFormed (w : InstrWord) : Bool :=
  match decode w with
  | .ok i => i.wellFormed
  | .error _ => false

/-- A well-formed image: every one of its IMEM_SIZE cells is (30_encoding.md R109). -/
def WellFormedImage (s : State) : Prop :=
  ∀ k, k < Config.imemSize → cellWellFormed (s.imem.read k) = true

/-- n steps of the machine, stopping where no next state is answered: `Host.Core.run` of this core
(`runSteps_eq_run` of Laws/Ops.lean), written over `step` itself. -/
def runSteps : Nat → State → Result
  | 0, s => .next s
  | n + 1, s =>
    match step s with
    | .next t => runSteps n t
    | .fault r => .fault r
    | .refused r => .refused r

/-- The engine is Running and the pc names a cell: the next step fetches `s.imem.read`'s word there. -/
abbrev Fetching (s : State) : Prop :=
  s.runState = .running ∧ 0 ≤ s.pc.toInt ∧ s.pc.toInt < 1024

/-- The word that a Fetching state's next step fetches. -/
abbrev wordAtPc (s : State) : InstrWord := s.imem.read (cellIndex s.pc)

/-- The outcome with its next state changed by f. -/
def mapNext (f : State → State) : Result → Result
  | .next s => .next (f s)
  | .fault r => .fault r
  | .refused r => .refused r

/-! ### Integer tokens of a program text (30_encoding.md R115) -/

/-- One or more decimal digits, 0 (code 48) to 9 (code 57). -/
def DecimalDigits (ds : List Char) : Prop := ds ≠ [] ∧ ∀ ch ∈ ds, 48 ≤ ch.toNat ∧ ch.toNat ≤ 57

/-- The value of decimal digits, the most significant first. -/
def decimalValue (ds : List Char) : Int :=
  (Nat.ofDigits 10 (ds.reverse.map fun ch => ch.toNat - 48) : Nat)

/-! ### Which instruction touches what (10_state.md R22) -/

/-- The register an instruction writes, apart from the pc's advance and a taken branch (R22). -/
def destOf : Instr → Option Reg
  | .inp a _ _ | .add a _ _ | .sub a _ _ | .mul a _ _ | .div a _ _ | .ld a _ _ | .lda a _ _
  | .ldc a _ _ => some a
  | .halt _ _ _ | .out _ _ _ | .st _ _ _ | .jlt _ _ _ | .jle _ _ _ | .jgt _ _ _ | .jge _ _ _
  | .jeq _ _ _ | .jne _ _ _ => none

/-- An instruction reads register r as an operand (R22). -/
def readsReg (i : Instr) (r : Reg) : Prop :=
  match i with
  | .halt _ _ _ | .inp _ _ _ | .ldc _ _ _ => False
  | .out a _ _ => r = a
  | .add _ b c | .sub _ b c | .mul _ b c | .div _ b c => r = b ∨ (r.val : Int) = c.toInt
  | .ld _ b _ | .lda _ b _ => r = b
  | .st a b _ | .jlt a b _ | .jle a b _ | .jgt a b _ | .jge a b _ | .jeq a b _ | .jne a b _ =>
    r = a ∨ r = b

/-- The comparison of a conditional branch; none for every other opcode (44_ra_branches.md R194 to
R199). -/
def branchCond : Instr → Option Cond
  | .jlt _ _ _ => some .lt
  | .jle _ _ _ => some .le
  | .jgt _ _ _ => some .gt
  | .jge _ _ _ => some .ge
  | .jeq _ _ _ => some .eq
  | .jne _ _ _ => some .ne
  | .halt _ _ _ | .inp _ _ _ | .out _ _ _ | .add _ _ _ | .sub _ _ _ | .mul _ _ _ | .div _ _ _
  | .ld _ _ _ | .st _ _ _ | .lda _ _ _ | .ldc _ _ _ => none

/-- The instruction is HALT. -/
def isHalt : Instr → Bool
  | .halt _ _ _ => true
  | .inp _ _ _ | .out _ _ _ | .add _ _ _ | .sub _ _ _ | .mul _ _ _ | .div _ _ _ | .ld _ _ _
  | .st _ _ _ | .lda _ _ _ | .ldc _ _ _ | .jlt _ _ _ | .jle _ _ _ | .jgt _ _ _ | .jge _ _ _
  | .jeq _ _ _ | .jne _ _ _ => false

/-- The effective address of an instruction's second and third operand (20_memory.md R78). -/
def addrOf (i : Instr) (s : State) : Word := effAddr s i.operands.2.1 i.operands.2.2

/-! ### Frames -/

/-- Every register but the pc and `dst` is unchanged. -/
def RegsKept (s t : State) (dst : Option Reg) : Prop :=
  ∀ r, r ≠ Config.pcReg → dst ≠ some r → t.reg r = s.reg r

/-- Every data cell but those `stored` names is unchanged. -/
def CellsKept (s t : State) (stored : Nat → Prop) : Prop :=
  ∀ k, ¬ stored k → t.dmem.read k = s.dmem.read k

/-- Every instruction cell is unchanged. -/
def ImageKept (s t : State) : Prop := ∀ k, t.imem.read k = s.imem.read k

/-- Run state and fault latch are unchanged. -/
def StatusKept (s t : State) : Prop := t.runState = s.runState ∧ t.faultKind = s.faultKind

/-- Both streams are unchanged. -/
def StreamsKept (s t : State) : Prop := t.input = s.input ∧ t.output = s.output

/-- `x[a] <- v`, then the engine's pc-advance, and no other register changes (10_state.md R27, R28): for
`a` = 7 the advance applies to the written value. -/
def WritesReg (s t : State) (a : Reg) (v : Word) : Prop :=
  (a ≠ Config.pcReg → t.reg a = v ∧ t.pc = wrap (s.pc.toInt + 1)) ∧
  (a = Config.pcReg → t.pc = wrap (v.toInt + 1)) ∧
  RegsKept s t (some a)

/-- t is s after `raise f` (60_exceptions.md R218): Faulted, the latch f, every register (the pc too),
every cell and both streams as in s. -/
def Raised (s t : State) (f : FaultKind) : Prop :=
  t.runState = .faulted ∧ t.faultKind = some f ∧ (∀ r, t.reg r = s.reg r) ∧
    CellsKept s t (fun _ => False) ∧ ImageKept s t ∧ StreamsKept s t

/-- The encoding of an opcode: its tag above the operands in every word of it (30_encoding.md R93,
R121). -/
def EncodedWithTag (mk : Reg → Reg → Word → Instr) (tag : Nat) : Prop :=
  ∀ a b c, (encode (mk a b c)).toNat =
    tag * 2 ^ 38 + a.val * 2 ^ 35 + b.val * 2 ^ 32 + (c.toInt % 2 ^ 32).toNat

/-- An ADD-like instruction runs on every state: whenever the third operand names register r, `x[a]`
takes `wrap(f(x[b], x[r]))`, the pc advances, and nothing else changes. -/
def ComputesFromSources (mk : Reg → Reg → Word → Instr) (f : Int → Int → Int) : Prop :=
  ∀ (a b r : Reg) (c : Word) (s : State), c.toInt = (r.val : Int) →
    ∃ t, exec (mk a b c) s = .next t ∧
      WritesReg s t a (wrap (f (s.reg b).toInt (s.reg r).toInt)) ∧
      CellsKept s t (fun _ => False) ∧ ImageKept s t ∧ StatusKept s t ∧ StreamsKept s t

/-- A branch follows its rule on every state (44_ra_branches.md R190 to R193): with the target out of
range it raises InstructionMemoryFault whatever the condition; with the target in range it writes the
target to the pc if the tested register satisfies the comparison with 0, and changes nothing
otherwise. -/
def BranchesOn (mk : Reg → Reg → Word → Instr) (cond : Int → Prop) : Prop :=
  ∀ (a b : Reg) (c : Word) (s : State),
    ((0 ≤ (effAddr s b c).toInt ∧ (effAddr s b c).toInt < 1024) → cond (s.reg a).toInt →
      ∃ t, exec (mk a b c) s = .next t ∧ t.pc = effAddr s b c ∧ RegsKept s t none ∧
        CellsKept s t (fun _ => False) ∧ ImageKept s t ∧ StatusKept s t ∧ StreamsKept s t) ∧
    ((0 ≤ (effAddr s b c).toInt ∧ (effAddr s b c).toInt < 1024) → ¬ cond (s.reg a).toInt →
      exec (mk a b c) s = .next s) ∧
    (¬ (0 ≤ (effAddr s b c).toInt ∧ (effAddr s b c).toInt < 1024) →
      ∃ t, exec (mk a b c) s = .next t ∧ Raised s t .instructionMemoryFault)

end Sys2Proof.Machine
end

