-- ==== Sys2Proof/Certificates/Slice0/Obligations.lean ====
section
/-! DEFINITION. The statements for the provers. Each docstring names the rules of spec/ it rests on; a
statement about a state holds for every state, reachable or not, unless a premise says otherwise. -/

open Sys2Proof Sys2Proof.Machine

/-! ### Encoding (30_encoding.md) -/

/-- Decoding the word of an instruction gives the instruction back, with every operand at every value
of its field. Derived from the layout of 30_encoding.md section 3 (the word is a bijection with the
tuples, decision D6). -/
def Obligations.DecodeOfEncode : Prop :=
  ∀ i : Instr, decode (encode i) = .ok i

/-- A word that decodes to an instruction is that instruction's only word: no bit of it is dropped.
Derived from 30_encoding.md section 3 (decision D6). -/
def Obligations.EncodeOfDecode : Prop :=
  ∀ (w : InstrWord) (i : Instr), decode w = .ok i → encode i = w

/-- R121: the word of a tuple is `op * 2^38 + a * 2^35 + b * 2^32 + (c mod 2^32)`, c signed; and the
rule's five examples. -/
def Obligations.EncodeFollowsTheFormula : Prop :=
  (∀ i : Instr, (encode i).toNat =
    tagOf i * 2 ^ 38 + i.operands.1.val * 2 ^ 35 + i.operands.2.1.val * 2 ^ 32 +
      (i.operands.2.2.toInt % 2 ^ 32).toNat) ∧
  encode (.ldc 0 0 5) = 0x28000000005#43 ∧ encode (.add 2 0 1) = 0x0D000000001#43 ∧
  encode (.ld 3 4 (-2)) = 0x1DCFFFFFFFE#43 ∧ encode (.jne 1 7 (-3)) = 0x40FFFFFFFFD#43 ∧
  encode (.halt 0 0 0) = 0x00000000000#43

/-- R94: every word has the four fields w[42:38], w[37:35], w[34:32] and w[31:0], the last read as a
signed integer; an instruction decoded from the word has exactly them as its tag and operands. -/
def Obligations.DecodeReadsTheFields : Prop :=
  (∀ w : InstrWord,
    (opField w).toNat = w.toNat / 2 ^ 38 ∧ (aField w).val = w.toNat / 2 ^ 35 % 8 ∧
    (bField w).val = w.toNat / 2 ^ 32 % 8 ∧ (cField w).toInt = (w.toNat : Int).bmod (2 ^ 32)) ∧
  (∀ (w : InstrWord) (i : Instr), decode w = .ok i →
    tagOf i = (opField w).toNat ∧ i.operands = (aField w, bField w, cField w))

/-- A word is no instruction exactly when its tag is 17 or more. Derived from 30_encoding.md section 4
(R106, R107). -/
def Obligations.UndecodableWordsAreUnknownTags : Prop :=
  ∀ w : InstrWord, (∀ i, decode w ≠ .ok i) ↔ 17 ≤ w.toNat / 2 ^ 38

/-- All 17 words of 95_test_vectors.md section 2.1 decode as its second column says, the ill-formed ones
(which decode all the same) and the two unknown tags among them. -/
def Obligations.SpecWordsDecode : Prop :=
  decode 0x00000000000#43 = .ok (.halt 0 0 0) ∧ decode 0x28000000005#43 = .ok (.ldc 0 0 5) ∧
  decode 0x288FFFFFFFF#43 = .ok (.ldc 1 0 (-1)) ∧ decode 0x1DCFFFFFFFE#43 = .ok (.ld 3 4 (-2)) ∧
  decode 0x21CFFFFFFFE#43 = .ok (.st 3 4 (-2)) ∧ decode 0x249FFFFFFFF#43 = .ok (.lda 1 1 (-1)) ∧
  decode 0x3BB0000000B#43 = .ok (.jge 7 3 11) ∧ decode 0x40FFFFFFFFD#43 = .ok (.jne 1 7 (-3)) ∧
  decode 0x2A0FFFFFFF8#43 = .ok (.ldc 4 0 (-8)) ∧ decode 0x288000003FF#43 = .ok (.ldc 1 0 1023) ∧
  decode 0x03FFFFFFFFF#43 = .ok (.halt 7 7 (-1)) ∧ decode 0x00000000063#43 = .ok (.halt 0 0 99) ∧
  decode 0x09000000008#43 = .ok (.out 2 0 8) ∧ decode 0x0D000000008#43 = .ok (.add 2 0 8) ∧
  decode 0x0D0FFFFFFFF#43 = .ok (.add 2 0 (-1)) ∧
  decode 0x44000000000#43 = .error (.unknownTag 17) ∧
  decode 0x7FFFFFFFFFF#43 = .error (.unknownTag 31)

/-! ### Arithmetic (00_scope.md, 20_memory.md, 41_rr_io_arith.md, 44_ra_branches.md) -/

/-- `wrap(v)` is the one element of IntX congruent to v modulo 2^32. Derived from 00_scope.md section 5
(R8, which also fixes other notation; decisions D1, D2 of the spec). -/
def Obligations.WrapIsTheCongruentElement : Prop :=
  ∀ v : Int, (-2 ^ 31 ≤ (wrap v).toInt ∧ (wrap v).toInt ≤ 2 ^ 31 - 1) ∧
    (wrap v).toInt % 2 ^ 32 = v % 2 ^ 32 ∧
    ∀ u : Int, -2 ^ 31 ≤ u → u ≤ 2 ^ 31 - 1 → u % 2 ^ 32 = v % 2 ^ 32 → u = (wrap v).toInt

/-- R157 (decisions D1, D2 of the spec): ADD, SUB, MUL, the effective address (so LDA) and the pc's
increment give the true result reduced modulo 2^32 to a signed value, which is the true result whenever
that lies in IntX; and no overflow faults. -/
def Obligations.ArithmeticWrapsSilently : Prop :=
  (∀ m n : Word,
    (aluAdd m n).toInt = (m.toInt + n.toInt).bmod (2 ^ 32) ∧
    (aluSub m n).toInt = (m.toInt - n.toInt).bmod (2 ^ 32) ∧
    (aluMul m n).toInt = (m.toInt * n.toInt).bmod (2 ^ 32)) ∧
  (∀ v : Int, -2 ^ 31 ≤ v → v ≤ 2 ^ 31 - 1 → v.bmod (2 ^ 32) = v) ∧
  (∀ (s : State) (b : Reg) (c : Word),
    (effAddr s b c).toInt = ((s.reg b).toInt + c.toInt).bmod (2 ^ 32) ∧
    s.advance.pc.toInt = (s.pc.toInt + 1).bmod (2 ^ 32)) ∧
  (∀ (a b : Reg) (c : Word) (s t : State),
    exec (.add a b c) s = .next t ∨ exec (.sub a b c) s = .next t ∨
      exec (.mul a b c) s = .next t ∨ exec (.lda a b c) s = .next t → StatusKept s t)

/-- R158 (decision D3 of the spec): for a divisor other than 0 the quotient is the integer of largest
magnitude whose product with the divisor is no larger in magnitude than the dividend, with the sign of
the product of the two (or 0); and the rule's table of results. The overflow pair of R159 is set
apart. -/
def Obligations.DivisionTruncatesTowardZero : Prop :=
  (∀ n d : Word, d.toInt ≠ 0 → ¬ (n.toInt = -2 ^ 31 ∧ d.toInt = -1) →
    ∃ q : Word, aluDiv n d = some q ∧
      |q.toInt * d.toInt| ≤ |n.toInt| ∧ 0 ≤ q.toInt * (n.toInt * d.toInt) ∧
      ∀ p : Int, |p * d.toInt| ≤ |n.toInt| → |p| ≤ |q.toInt|) ∧
  aluDiv 7 2 = some 3 ∧ aluDiv (-7) 2 = some (-3) ∧ aluDiv 7 (-2) = some (-3) ∧
  aluDiv (-7) (-2) = some 3 ∧ aluDiv 0 5 = some 0 ∧ aluDiv 0 (-5) = some 0 ∧
  aluDiv 5 7 = some 0 ∧ aluDiv (-5) 7 = some 0 ∧
  (∀ n : Word, aluDiv n 1 = some n) ∧
  (∀ n : Word, n.toInt ≠ -2 ^ 31 → ∃ q, aluDiv n (-1) = some q ∧ q.toInt = -n.toInt) ∧
  (∀ n : Word, aluDiv n 0 = none)

/-- R159 (decision D4 of the spec): the one quotient outside IntX is -2147483648 divided by -1; DIV then
writes -2147483648 and does not fault. -/
def Obligations.DivisionOverflowWraps : Prop :=
  (∀ n d : Word, d.toInt ≠ 0 →
    (¬ (-2 ^ 31 ≤ n.toInt.tdiv d.toInt ∧ n.toInt.tdiv d.toInt ≤ 2 ^ 31 - 1) ↔
      n.toInt = -2 ^ 31 ∧ d.toInt = -1)) ∧
  (∀ (a b r : Reg) (c : Word) (s : State), c.toInt = (r.val : Int) →
    (s.reg b).toInt = -2 ^ 31 → (s.reg r).toInt = -1 →
    ∃ t, exec (.div a b c) s = .next t ∧ WritesReg s t a (BitVec.ofInt 32 (-2 ^ 31)) ∧
      StatusKept s t)

/-- R201: the six comparisons are those of signed integers with 0; the rule's table and its extreme
values. -/
def Obligations.ComparisonsAreSigned : Prop :=
  (∀ v : Word,
    (Cond.lt.holds v = true ↔ v.toInt < 0) ∧ (Cond.le.holds v = true ↔ v.toInt ≤ 0) ∧
    (Cond.gt.holds v = true ↔ 0 < v.toInt) ∧ (Cond.ge.holds v = true ↔ 0 ≤ v.toInt) ∧
    (Cond.eq.holds v = true ↔ v.toInt = 0) ∧ (Cond.ne.holds v = true ↔ v.toInt ≠ 0)) ∧
  ([Cond.lt, .le, .gt, .ge, .eq, .ne].map fun k => (k.holds (-1), k.holds 0, k.holds 1)) =
    [(true, false, false), (true, true, false), (false, false, true), (false, true, true),
     (false, true, false), (true, false, true)] ∧
  (BitVec.toInt 0x80000000#32 = -2147483648 ∧ Cond.lt.holds 0x80000000#32 = true) ∧
  (BitVec.toInt 0x7FFFFFFF#32 = 2147483647 ∧ Cond.gt.holds 0x7FFFFFFF#32 = true)

/-- The effective address is `wrap(x[b] + c)`, with its two wrap-around corner cases. Derived from
20_memory.md section 3 (R78, decision D5 of the spec); the bounds that each opcode tests it against are
in the opcodes' own statements. -/
def Obligations.EffectiveAddressWraps : Prop :=
  (∀ (s : State) (b : Reg) (c : Word),
    effAddr s b c = wrap ((s.reg b).toInt + c.toInt)) ∧
  (∀ (s : State) (b : Reg), (s.reg b).toInt = -2147483648 →
    (effAddr s b (BitVec.ofInt 32 (-2147483648))).toInt = 0) ∧
  (∀ (s : State) (b : Reg), (s.reg b).toInt = 2147483647 →
    (effAddr s b 1).toInt = -2147483648)

/-! ### Stores (20_memory.md) -/

/-- R64: a data read gives the cell if 0 <= addr < 1024 and is a DataMemoryFault otherwise. (It answers
no state: nothing changes.) -/
def Obligations.DataReadIsBounded : Prop :=
  ∀ (s : State) (addr : Word),
    ((0 ≤ addr.toInt ∧ addr.toInt < 1024) →
      memRead s addr = .ok (s.dmem.read addr.toInt.toNat)) ∧
    (¬ (0 ≤ addr.toInt ∧ addr.toInt < 1024) → memRead s addr = .error .dataMemoryFault)

/-- R65: a data write with 0 <= addr < 1024 makes that cell v and changes no other cell and nothing
else; otherwise it is a DataMemoryFault (and answers no state: no cell changes). -/
def Obligations.DataWriteChangesOneCell : Prop :=
  ∀ (s : State) (addr v : Word),
    ((0 ≤ addr.toInt ∧ addr.toInt < 1024) →
      ∃ t, memWrite s addr v = .ok t ∧ t.dmem.read addr.toInt.toNat = v ∧
        CellsKept s t (fun k => k = addr.toInt.toNat) ∧ (∀ r, t.reg r = s.reg r) ∧
        ImageKept s t ∧ StatusKept s t ∧ StreamsKept s t) ∧
    (¬ (0 ≤ addr.toInt ∧ addr.toInt < 1024) → memWrite s addr v = .error .dataMemoryFault)

/-- R66 (decision D11 of the spec): an instruction read gives the cell if 0 <= addr < 1024 and is an
InstructionMemoryFault otherwise. -/
def Obligations.InstructionReadIsBounded : Prop :=
  ∀ (s : State) (addr : Word),
    ((0 ≤ addr.toInt ∧ addr.toInt < 1024) →
      fetchWord s addr = .ok (s.imem.read addr.toInt.toNat)) ∧
    (¬ (0 ≤ addr.toInt ∧ addr.toInt < 1024) →
      fetchWord s addr = .error .instructionMemoryFault)

/-- A store followed later by a load with the same effective address, the cell untouched between them,
loads the stored value. Derived from 20_memory.md R77 and 42_rm_load_store.md R173, which the spec
marks as its own inferences. -/
def Obligations.StoreThenLoadReturnsTheValue : Prop :=
  ∀ (a b a2 b2 : Reg) (c c2 : Word) (s t u : State),
    exec (.st a b c) s = .next t →
    0 ≤ (effAddr s b c).toInt → (effAddr s b c).toInt < 1024 →
    effAddr u b2 c2 = effAddr s b c →
    u.dmem.read (cellIndex (effAddr s b c)) = t.dmem.read (cellIndex (effAddr s b c)) →
    ∃ v, exec (.ld a2 b2 c2) u = .next v ∧ WritesReg u v a2 (s.reg a)

/-! ### Instructions: encoding, result, completion and frame -/

/-- R150: HALT, on every state and whatever its operands, ends in Halted with the pc, every register,
every cell, both streams and the latch unchanged. -/
def Obligations.HaltStopsTheEngine : Prop :=
  EncodedWithTag .halt 0 ∧ encode (.halt 0 0 0) = 0x00000000000#43 ∧
  ∀ (a b : Reg) (c : Word) (s : State),
    ∃ t, exec (.halt a b c) s = .next t ∧ t.runState = .halted ∧ t.faultKind = s.faultKind ∧
      (∀ r, t.reg r = s.reg r) ∧ CellsKept s t (fun _ => False) ∧ ImageKept s t ∧ StreamsKept s t

/-- R151: IN with a value waiting takes exactly that value into `x[a]` and the pc advances; with none
waiting nothing changes at all. -/
def Obligations.InTakesOneInputValue : Prop :=
  EncodedWithTag .inp 1 ∧ encode (.inp 0 0 0) = 0x04000000000#43 ∧
  (∀ (a b : Reg) (c : Word) (s : State) (v : Word) (rest : List Word), s.input = v :: rest →
    ∃ t, exec (.inp a b c) s = .next t ∧ WritesReg s t a v ∧ t.input = rest ∧
      t.output = s.output ∧ CellsKept s t (fun _ => False) ∧ ImageKept s t ∧ StatusKept s t) ∧
  (∀ (a b : Reg) (c : Word) (s : State), s.input = [] → exec (.inp a b c) s = .next s)

/-- R152: OUT, on every state, appends `x[a]` to the output; no register changes but the pc, which
advances. -/
def Obligations.OutAppendsTheRegister : Prop :=
  EncodedWithTag .out 2 ∧ encode (.out 2 0 0) = 0x09000000000#43 ∧
  ∀ (a b : Reg) (c : Word) (s : State),
    ∃ t, exec (.out a b c) s = .next t ∧ t.output = s.output ++ [s.reg a] ∧ t.input = s.input ∧
      t.pc = wrap (s.pc.toInt + 1) ∧ RegsKept s t none ∧ CellsKept s t (fun _ => False) ∧
      ImageKept s t ∧ StatusKept s t

/-- R153, R154, R155: ADD, SUB and MUL write the wrapped sum, difference (second operand register minus
third) and product; they never fault, and refuse exactly a third operand that is no register index. -/
def Obligations.AddSubMulWriteTheWrappedResult : Prop :=
  (EncodedWithTag .add 3 ∧ EncodedWithTag .sub 4 ∧ EncodedWithTag .mul 5) ∧
  (encode (.add 2 0 1) = 0x0D000000001#43 ∧ encode (.sub 2 0 1) = 0x11000000001#43 ∧
    encode (.mul 2 0 1) = 0x15000000001#43) ∧
  ComputesFromSources .add (fun m n => m + n) ∧ ComputesFromSources .sub (fun m n => m - n) ∧
  ComputesFromSources .mul (fun m n => m * n) ∧
  ∀ (a b : Reg) (c : Word) (s : State), ¬ (0 ≤ c.toInt ∧ c.toInt < 8) →
    exec (.add a b c) s = .refused .operandNotRegister ∧
    exec (.sub a b c) s = .refused .operandNotRegister ∧
    exec (.mul a b c) s = .refused .operandNotRegister

/-- R156: DIV with a divisor other than 0 writes the wrapped quotient; with the divisor 0 it raises
DivideByZero and `x[a]` and the pc are unchanged, as is everything but run state and latch. -/
def Obligations.DivWritesTheQuotientOrFaults : Prop :=
  EncodedWithTag .div 6 ∧ encode (.div 1 0 0) = 0x18800000000#43 ∧
  (∀ (a b r : Reg) (c : Word) (s : State), c.toInt = (r.val : Int) → (s.reg r).toInt ≠ 0 →
    ∃ t, exec (.div a b c) s = .next t ∧
      WritesReg s t a (wrap ((s.reg b).toInt.tdiv (s.reg r).toInt)) ∧
      CellsKept s t (fun _ => False) ∧ ImageKept s t ∧ StatusKept s t ∧ StreamsKept s t) ∧
  (∀ (a b r : Reg) (c : Word) (s : State), c.toInt = (r.val : Int) → (s.reg r).toInt = 0 →
    ∃ t, exec (.div a b c) s = .next t ∧ Raised s t .divideByZero)

/-- R171: LD copies the data cell at its effective address into `x[a]`; out of bounds it raises
DataMemoryFault with `x[a]` not written (decision D24 of the spec). -/
def Obligations.LdLoadsTheCellOrFaults : Prop :=
  EncodedWithTag .ld 7 ∧ encode (.ld 3 4 (-2)) = 0x1DCFFFFFFFE#43 ∧
  ∀ (a b : Reg) (c : Word) (s : State),
    ((0 ≤ (effAddr s b c).toInt ∧ (effAddr s b c).toInt < 1024) →
      ∃ t, exec (.ld a b c) s = .next t ∧
        WritesReg s t a (s.dmem.read (cellIndex (effAddr s b c))) ∧
        CellsKept s t (fun _ => False) ∧ ImageKept s t ∧ StatusKept s t ∧ StreamsKept s t) ∧
    (¬ (0 ≤ (effAddr s b c).toInt ∧ (effAddr s b c).toInt < 1024) →
      ∃ t, exec (.ld a b c) s = .next t ∧ Raised s t .dataMemoryFault)

/-- R172: ST makes the data cell at its effective address `x[a]`, and no other cell and no register but
the pc changes; out of bounds it raises DataMemoryFault and no cell changes. -/
def Obligations.StStoresTheRegisterOrFaults : Prop :=
  EncodedWithTag .st 8 ∧ encode (.st 3 4 (-2)) = 0x21CFFFFFFFE#43 ∧
  ∀ (a b : Reg) (c : Word) (s : State),
    ((0 ≤ (effAddr s b c).toInt ∧ (effAddr s b c).toInt < 1024) →
      ∃ t, exec (.st a b c) s = .next t ∧
        t.dmem.read (cellIndex (effAddr s b c)) = s.reg a ∧
        CellsKept s t (fun k => k = cellIndex (effAddr s b c)) ∧
        t.pc = wrap (s.pc.toInt + 1) ∧ RegsKept s t none ∧ ImageKept s t ∧ StatusKept s t ∧
        StreamsKept s t) ∧
    (¬ (0 ≤ (effAddr s b c).toInt ∧ (effAddr s b c).toInt < 1024) →
      ∃ t, exec (.st a b c) s = .next t ∧ Raised s t .dataMemoryFault)

/-- R180, R181: on every state LDA writes `wrap(x[b] + c)`, whatever its range, and LDC writes c itself;
neither faults. -/
def Obligations.LdaAndLdcWriteTheirValue : Prop :=
  (EncodedWithTag .lda 9 ∧ encode (.lda 1 1 (-1)) = 0x249FFFFFFFF#43) ∧
  (EncodedWithTag .ldc 10 ∧ encode (.ldc 0 0 5) = 0x28000000005#43 ∧
    encode (.ldc 1 0 (-1)) = 0x288FFFFFFFF#43) ∧
  (∀ (a b : Reg) (c : Word) (s : State),
    ∃ t, exec (.lda a b c) s = .next t ∧ WritesReg s t a (wrap ((s.reg b).toInt + c.toInt)) ∧
      CellsKept s t (fun _ => False) ∧ ImageKept s t ∧ StatusKept s t ∧ StreamsKept s t) ∧
  (∀ (a b : Reg) (c : Word) (s : State),
    ∃ t, exec (.ldc a b c) s = .next t ∧ WritesReg s t a c ∧
      CellsKept s t (fun _ => False) ∧ ImageKept s t ∧ StatusKept s t ∧ StreamsKept s t)

/-- R190, R191, R193 to R199: the six branches test their target before the condition; taken, the pc is
the target exactly; not taken, nothing changes (decision D10 of the spec); out of range,
InstructionMemoryFault whatever the condition. -/
def Obligations.BranchesTestTargetThenCondition : Prop :=
  (EncodedWithTag .jlt 11 ∧ encode (.jlt 1 7 2) = 0x2CF00000002#43 ∧ BranchesOn .jlt (· < 0)) ∧
  (EncodedWithTag .jle 12 ∧ encode (.jle 1 7 2) = 0x30F00000002#43 ∧ BranchesOn .jle (· ≤ 0)) ∧
  (EncodedWithTag .jgt 13 ∧ encode (.jgt 1 7 2) = 0x34F00000002#43 ∧ BranchesOn .jgt (· > 0)) ∧
  (EncodedWithTag .jge 14 ∧ encode (.jge 1 7 2) = 0x38F00000002#43 ∧ BranchesOn .jge (· ≥ 0)) ∧
  (EncodedWithTag .jeq 15 ∧ encode (.jeq 0 0 0) = 0x3C000000000#43 ∧ BranchesOn .jeq (· = 0)) ∧
  (EncodedWithTag .jne 16 ∧ encode (.jne 1 7 (-3)) = 0x40FFFFFFFFD#43 ∧ BranchesOn .jne (· ≠ 0))

/-- ADD, SUB, MUL and DIV with a third operand outside 0 to 7 are refused on every state; HALT, IN and
OUT do the same whatever their third operand holds as with a third operand of 0 (that they complete is
in their own statements). Derived from 30_encoding.md R110 (decision D9 of the spec), whose clause on
HALT, IN and OUT the spec marks as its own inference from R102. -/
def Obligations.IllFormedThirdOperandIsRefused : Prop :=
  (∀ (a b : Reg) (c : Word) (s : State), ¬ (0 ≤ c.toInt ∧ c.toInt < 8) →
    exec (.add a b c) s = .refused .operandNotRegister ∧
    exec (.sub a b c) s = .refused .operandNotRegister ∧
    exec (.mul a b c) s = .refused .operandNotRegister ∧
    exec (.div a b c) s = .refused .operandNotRegister) ∧
  (∀ (a b : Reg) (c : Word) (s : State),
    exec (.halt a b c) s = exec (.halt a b 0) s ∧ exec (.inp a b c) s = exec (.inp a b 0) s ∧
    exec (.out a b c) s = exec (.out a b 0) s)

/-- An operand that an opcode does not use has no effect whatever its value: all three of HALT, the
second and third of IN and OUT, the second of LDC. Derived from 30_encoding.md section 3 (R102). -/
def Obligations.UnusedOperandsHaveNoEffect : Prop :=
  ∀ (a b a' b' : Reg) (c c' : Word) (s : State),
    exec (.halt a b c) s = exec (.halt a' b' c') s ∧
    exec (.inp a b c) s = exec (.inp a b' c') s ∧
    exec (.out a b c) s = exec (.out a b' c') s ∧
    exec (.ldc a b c) s = exec (.ldc a b' c) s

/-- The same register as both sources and destination (not the pc): ADD doubles it, SUB clears it, MUL
squares it, DIV gives 1 or faults. Derived from 41_rr_io_arith.md R160, which the spec marks as its own
inference. -/
def Obligations.SourcesAreReadBeforeTheDestinationIsWritten : Prop :=
  ∀ (r : Reg) (c : Word) (s : State), r ≠ Config.pcReg → c.toInt = (r.val : Int) →
    (∃ t, exec (.add r r c) s = .next t ∧ t.reg r = wrap (2 * (s.reg r).toInt)) ∧
    (∃ t, exec (.sub r r c) s = .next t ∧ t.reg r = 0) ∧
    (∃ t, exec (.mul r r c) s = .next t ∧ t.reg r = wrap ((s.reg r).toInt * (s.reg r).toInt)) ∧
    ((s.reg r).toInt ≠ 0 → ∃ t, exec (.div r r c) s = .next t ∧ t.reg r = 1) ∧
    ((s.reg r).toInt = 0 → ∃ t, exec (.div r r c) s = .next t ∧ Raised s t .divideByZero)

/-! ### The step (40_execution_cycle.md) -/

/-- A Running state whose pc names a cell with an instruction steps as that instruction does; the step
adds nothing around it. Derived from 40_execution_cycle.md R130 and R134. -/
def Obligations.StepRunsTheDecodedInstruction : Prop :=
  ∀ (s : State) (i : Instr), Fetching s → decode (wordAtPc s) = .ok i → step s = exec i s

/-- R132 (decision D11 of the spec): the fetch reads the cell that the pc names; with the pc out of
range the step ends in InstructionMemoryFault, nothing else having changed, the pc included. -/
def Obligations.FetchOutOfRangeFaults : Prop :=
  (∀ s : State, (0 ≤ s.pc.toInt ∧ s.pc.toInt < 1024) →
    fetchWord s s.pc = .ok (s.imem.read s.pc.toInt.toNat)) ∧
  (∀ s : State, s.runState = .running → ¬ (0 ≤ s.pc.toInt ∧ s.pc.toInt < 1024) →
    ∃ t, step s = .next t ∧ Raised s t .instructionMemoryFault)

/-- R106 (decision D8 of the spec): a fetched word with a tag of 17 or more raises NoSuchInstruction,
whatever its other fields; no instruction's word, so none that the loader writes, has such a tag. -/
def Obligations.UnknownTagRaisesNoSuchInstruction : Prop :=
  (∀ s : State, Fetching s → 17 ≤ (wordAtPc s).toNat / 2 ^ 38 →
    ∃ t, step s = .next t ∧ Raised s t .noSuchInstruction) ∧
  (∀ i : Instr, (encode i).toNat / 2 ^ 38 ≤ 16)

/-- R131 (decision D13 of the spec): a step happens only while Running, the first from reset with the pc
0; in Halted and Faulted no step happens, now or later. -/
def Obligations.NoStepInATerminalState : Prop :=
  (State.reset.runState = .running ∧ State.reset.pc = 0) ∧
  (∀ s t : State, step s = .next t → s.runState = .running) ∧
  (∀ (s t : State) (n : Nat), s.runState ≠ .running → runSteps (n + 1) s ≠ .next t)

/-- R218: raising a fault changes the run state to Faulted and the latch to its kind, and nothing else;
control goes nowhere: there is no step afterwards. -/
def Obligations.RaisingWritesOnlyTheLatch : Prop :=
  ∀ (s : State) (f : FaultKind),
    Raised s (s.raise f) f ∧ ∀ t, step (s.raise f) ≠ .next t

/-- A step that ends in Faulted leaves the state as it was before it, but for run state and latch; so
x[7] is the address of the faulting instruction. Derived from 60_exceptions.md R219 and R220, which the
spec marks as its own inferences. -/
def Obligations.FaultsArePrecise : Prop :=
  ∀ s t : State, step s = .next t → t.runState = .faulted →
    t.x = s.x ∧ t.imem = s.imem ∧ t.dmem = s.dmem ∧ t.input = s.input ∧ t.output = s.output ∧
      t.pc = s.pc

/-- R217: the complete table of which part of a step, and which opcode, can raise which fault. (The
premise that the latch is None before the step is the invariant of `InvariantIsKept`.) -/
def Obligations.FaultTableIsComplete : Prop :=
  ∀ s t : State, s.faultKind = none → step s = .next t →
    (t.faultKind = some .instructionMemoryFault ↔
      ¬ (0 ≤ s.pc.toInt ∧ s.pc.toInt < 1024) ∨
      (Fetching s ∧ ∃ i, decode (wordAtPc s) = .ok i ∧ branchCond i ≠ none ∧
        ¬ (0 ≤ (addrOf i s).toInt ∧ (addrOf i s).toInt < 1024))) ∧
    (t.faultKind = some .dataMemoryFault ↔
      Fetching s ∧ ∃ a b c, (decode (wordAtPc s) = .ok (.ld a b c) ∨
          decode (wordAtPc s) = .ok (.st a b c)) ∧
        ¬ (0 ≤ (effAddr s b c).toInt ∧ (effAddr s b c).toInt < 1024)) ∧
    (t.faultKind = some .divideByZero ↔
      Fetching s ∧ ∃ a b r c, decode (wordAtPc s) = .ok (.div a b c) ∧
        c.toInt = (r.val : Int) ∧ (s.reg r).toInt = 0) ∧
    (t.faultKind = some .noSuchInstruction ↔
      Fetching s ∧ 17 ≤ (wordAtPc s).toNat / 2 ^ 38)

/-- R35: Running goes to Halted exactly when HALT was fetched and to Faulted exactly when the step
raised a fault, and stays Running otherwise; nothing leaves Halted or Faulted. -/
def Obligations.RunStateTransitions : Prop :=
  ∀ s t : State, step s = .next t →
    s.runState = .running ∧
    (t.runState = .halted ↔
      Fetching s ∧ ∃ a b c, decode (wordAtPc s) = .ok (.halt a b c)) ∧
    (t.runState = .faulted ↔ ∃ f, Raised s t f)

/-- R215 (decision D12 of the spec): the codes of the fault latch; and the codes of the run state, of
which 3 never occurs. -/
def Obligations.StatusPortCodes : Prop :=
  (faultCode none = 0 ∧ faultCode (some .instructionMemoryFault) = 1 ∧
    faultCode (some .dataMemoryFault) = 2 ∧ faultCode (some .divideByZero) = 3 ∧
    faultCode (some .noSuchInstruction) = 4) ∧
  (RunState.code .running = 0 ∧ RunState.code .halted = 1 ∧ RunState.code .faulted = 2) ∧
  ∀ s : State, runStatePort s ≠ 3 ∧ (faultKindPort s).toNat ≤ 4

/-! ### The whole machine -/

/-- Every step keeps the invariant: both stores in canonical form and within their 1024 cells, the latch
holding a kind exactly in Faulted. Derived from 10_state.md section 5 (R36) and 20_memory.md section 1
(R61, R62). -/
def Obligations.InvariantIsKept : Prop :=
  ∀ s t : State, Inv s → step s = .next t → Inv t

/-- The state after reset, with any input, meets the invariant. Derived from 70_reset_and_hazards.md
section 1. -/
def Obligations.InvariantHoldsAtReset : Prop :=
  Inv State.reset ∧ ∀ inp, Inv (setup inp)

/-- R75: no instruction writes the instruction store, so during a run every address holds the same
instruction. -/
def Obligations.InstructionStoreNeverChanges : Prop :=
  (∀ (i : Instr) (s t : State), exec i s = .next t → t.imem = s.imem) ∧
  (∀ (n : Nat) (s t : State), runSteps n s = .next t → t.imem = s.imem)

/-- The registers an instruction writes are those of the table of 10_state.md section 2 (R22): its
destination, if it has one and the instruction does not fault, and the pc. -/
def Obligations.OnlyTheDestinationRegisterIsWritten : Prop :=
  ∀ (i : Instr) (s t : State), exec i s = .next t →
    RegsKept s t (destOf i) ∧
    (s.runState = .running → t.runState = .faulted → ∀ r, t.reg r = s.reg r)

/-- An instruction reads no register but those of the table of 10_state.md section 2 (R22) and the pc:
changing another register that it does not write changes nothing else of its effect. -/
def Obligations.OnlyTheSourceRegistersAreRead : Prop :=
  ∀ (i : Instr) (s : State) (r : Reg) (v : Word),
    r ≠ Config.pcReg → ¬ readsReg i r → destOf i ≠ some r →
    exec i (s.setReg r v) = mapNext (fun t => t.setReg r v) (exec i s)

/-- No instruction but ST changes a data cell, and ST changes none but the cell at its effective
address. Derived from 20_memory.md section 1 (R62) and 42_rm_load_store.md (R172). -/
def Obligations.OnlyStWritesTheDataStore : Prop :=
  (∀ (i : Instr) (s t : State), (∀ a b c, i ≠ .st a b c) → exec i s = .next t →
    CellsKept s t (fun _ => False)) ∧
  (∀ (a b : Reg) (c : Word) (s t : State), exec (.st a b c) s = .next t →
    CellsKept s t (fun k => k = cellIndex (effAddr s b c)))

/-- R45: only IN takes from the input, exactly its head; only OUT appends to the output, exactly one
value, there when the step ends; and no instruction but IN depends on the input. -/
def Obligations.StreamsBelongToInAndOut : Prop :=
  (∀ (i : Instr) (s t : State), exec i s = .next t → t.input ≠ s.input →
    ∃ a b c v, i = .inp a b c ∧ s.input = v :: t.input) ∧
  (∀ (i : Instr) (s t : State), exec i s = .next t → t.output ≠ s.output →
    ∃ a b c, i = .out a b c ∧ t.output = s.output ++ [s.reg a]) ∧
  (∀ (i : Instr) (s : State) (l : List Word), (∀ a b c, i ≠ .inp a b c) →
    exec i { s with input := l } = mapNext (fun t => { t with input := l }) (exec i s))

/-- After an instruction that leaves the engine Running: a branch leaves the pc or makes it the target;
any other opcode that does not write x[7] advances it by 1 (wrapped), unless it is a blocked IN. Derived
from 40_execution_cycle.md section 3 (R136, R137); the opcodes that write x[7] have their own
statements. -/
def Obligations.PcAdvancesByOpcodeClass : Prop :=
  ∀ (i : Instr) (s t : State), s.runState = .running → exec i s = .next t →
    t.runState = .running →
    (branchCond i ≠ none → t.pc = s.pc ∨ t.pc = addrOf i s) ∧
    (branchCond i = none → destOf i ≠ some Config.pcReg →
      ((∃ a b c, i = .inp a b c) ∧ s.input = [] ∧ t = s) ∨ t.pc = wrap (s.pc.toInt + 1))

/-- R141 (decision D15 of the spec): an IN on an empty input leaves the state exactly as it was, however
often it is attempted, and once the host appends a value the same IN takes it. -/
def Obligations.BlockedInWaitsForInput : Prop :=
  ∀ (a b : Reg) (c : Word) (s : State), Fetching s → decode (wordAtPc s) = .ok (.inp a b c) →
    s.input = [] →
    (∀ n, runSteps n s = .next s) ∧
    ∀ v vs, ∃ t, step (supplyInput s (v :: vs)) = .next t ∧ WritesReg s t a v ∧ t.input = vs

/-- R192 (decision D10 of the spec): a branch whose condition does not hold and whose target is in range
changes nothing at all, and so repeats for ever. -/
def Obligations.NotTakenBranchRepeatsForever : Prop :=
  ∀ (i : Instr) (k : Cond) (s : State), Fetching s → decode (wordAtPc s) = .ok i →
    branchCond i = some k → 0 ≤ (addrOf i s).toInt → (addrOf i s).toInt < 1024 →
    k.holds (s.reg i.operands.1) = false →
    ∀ n, runSteps n s = .next s

/-- R142 (decision D9 of the spec): a fetched ADD, SUB, MUL or DIV whose third operand is outside 0 to 7
is refused; with a well-formed image it cannot occur, in this step or after it, because the image stays
well-formed. And no step of a well-formed image latches NoSuchInstruction, so that latch stays clear of
it: this clause is derived from 30_encoding.md R106 and R109 (no well-formed cell has a tag of 17 or
more) and 60_exceptions.md R214. -/
def Obligations.WellFormedImagesAreNeverRefused : Prop :=
  (∀ (a b : Reg) (c : Word) (s : State), Fetching s → ¬ (0 ≤ c.toInt ∧ c.toInt < 8) →
    (decode (wordAtPc s) = .ok (.add a b c) ∨ decode (wordAtPc s) = .ok (.sub a b c) ∨
      decode (wordAtPc s) = .ok (.mul a b c) ∨ decode (wordAtPc s) = .ok (.div a b c)) →
    step s = .refused .operandNotRegister) ∧
  (∀ s : State, WellFormedImage s →
    (∀ r, step s ≠ .refused r) ∧ ∀ t, step s = .next t → WellFormedImage t) ∧
  (∀ s t : State, WellFormedImage s → s.faultKind ≠ some .noSuchInstruction → step s = .next t →
    WellFormedImage t ∧ t.faultKind ≠ some .noSuchInstruction)

/-- An input value that arrives matters only to an IN that is blocked (fetched, with no input): at every
other state, those with no fetch and those with no step among them, it makes no difference whether the
host appends before or after the step. Derived from 60_exceptions.md section 4 (R223)
and 10_state.md section 6 (R41). -/
def Obligations.InputArrivalMattersOnlyToABlockedIn : Prop :=
  ∀ (s : State) (vs : List Word),
    ¬ (Fetching s ∧ s.input = [] ∧ ∃ a b c, decode (wordAtPc s) = .ok (.inp a b c)) →
    step (supplyInput s vs) = mapNext (fun t => supplyInput t vs) (step s)

/-- A non-branch instruction at address 1023 that completes without writing x[7] leaves the pc 1024, and
the next step raises InstructionMemoryFault. Derived from 70_reset_and_hazards.md R266, which the spec
marks as its own inference. -/
def Obligations.RunningOffTheEndFaults : Prop :=
  ∀ (i : Instr) (s t : State), Fetching s → s.pc.toInt = 1023 → decode (wordAtPc s) = .ok i →
    branchCond i = none → destOf i ≠ some Config.pcReg →
    step s = .next t → t.runState = .running → t ≠ s →
    t.pc.toInt = 1024 ∧ ∃ u, step t = .next u ∧ Raised t u .instructionMemoryFault

/-! ### Reset, boot and loader (70_reset_and_hazards.md, 30_encoding.md section 7) -/

/-- R251: after reset every register is 0, every data cell is 0, every instruction cell holds
HALT 0 0 0, the engine is Running with no fault, the output is empty and none of the input the host
presents is taken. -/
def Obligations.ResetValues : Prop :=
  ∀ inp : List Word,
    (∀ r, (setup inp).reg r = 0) ∧ (setup inp).pc = 0 ∧ (∀ k, (setup inp).dmem.read k = 0) ∧
    (∀ k, (setup inp).imem.read k = 0 ∧ decode ((setup inp).imem.read k) = .ok (.halt 0 0 0)) ∧
    (setup inp).runState = .running ∧ (setup inp).faultKind = none ∧ (setup inp).output = [] ∧
    (setup inp).input = inp

/-- The load port writes one instruction cell and nothing else. Derived from 10_state.md section 7 (R46)
and 70_reset_and_hazards.md section 2 (R256). -/
def Obligations.LoadPortWritesOneCell : Prop :=
  ∀ (s : State) (addr : BitVec 10) (data : InstrWord),
    (loadCell s addr data).imem.read addr.toNat = data ∧
    (∀ k, k ≠ addr.toNat → (loadCell s addr data).imem.read k = s.imem.read k) ∧
    (∀ r, (loadCell s addr data).reg r = s.reg r) ∧
    CellsKept s (loadCell s addr data) (fun _ => False) ∧
    StatusKept s (loadCell s addr data) ∧ StreamsKept s (loadCell s addr data) ∧
    (Inv s → Inv (loadCell s addr data))

/-- A record is accepted exactly when its mnemonic is known, its integers are in IntX, its first two
operands are register indices and, for the RR class, the third is one too. Which names are known and
which tokens are integers is in MnemonicsAreTheSeventeenNames and IntegerTokensAreSignedDecimals.
Derived from 30_encoding.md section 7 (R116). -/
def Obligations.LoaderAcceptsExactlyTheCheckedRecords : Prop :=
  ∀ (name ta tb tc : List Char) (i : Instr),
    assembleRecord name ta tb tc = .ok i ↔
      ∃ mk a b c, mnemonicLookup name = some mk ∧ intToken ta = some a ∧ intToken tb = some b ∧
        intToken tc = some c ∧ (0 ≤ a ∧ a < 8) ∧ (0 ≤ b ∧ b < 8) ∧
        i = mk (Fin.ofNat 8 a.toNat) (Fin.ofNat 8 b.toNat) (wrap c) ∧
        (i.addrClass = .rr → 0 ≤ c ∧ c < 8)

/-- The boot puts the k-th record's word into cell k, leaves every later cell HALT 0 0 0, and writes
nothing else of the state after setup. Derived from 30_encoding.md section 7 (R117) and
70_reset_and_hazards.md section 2 (R256, R258, R259). -/
def Obligations.BootPlacesRecordsInOrder : Prop :=
  ∀ (text : String) (inp : List Word) (s : State), boot text inp = .ok s →
    ∃ is : List Instr, assemble (tokens text) = .ok is ∧ is.length ≤ 1024 ∧
      (∀ (k : Nat) (h : k < is.length), s.imem.read k = encode is[k]) ∧
      (∀ k, is.length ≤ k → s.imem.read k = 0) ∧
      { s with imem := [] } = setup inp ∧ Inv s

/-- Every image the loader produces is well-formed. Derived from 30_encoding.md section 4 (R109: "Every
image the document's loader produces is well-formed"). -/
def Obligations.LoaderImagesAreWellFormed : Prop :=
  ∀ (text : String) (inp : List Word) (s : State), boot text inp = .ok s → WellFormedImage s

/-- Whatever program text the loader accepts, whatever the input: the run never reaches a refusal and
never latches NoSuchInstruction. Derived from 30_encoding.md section 4 (R106, R110) and
70_reset_and_hazards.md section 2 (R257). -/
def Obligations.LoadedProgramsNeverRefuse : Prop :=
  ∀ (text : String) (inp : List Word) (s : State) (n : Nat), boot text inp = .ok s →
    (∀ r, runSteps n s ≠ .refused r) ∧
    ∀ t, runSteps n s = .next t → t.faultKind ≠ some .noSuchInstruction

/-- R114: the 17 names of R96 are the mnemonics, each exactly that of its own opcode, character for
character and in upper case; a record with any other name is a load-time fault, that of an unknown
mnemonic if its three integers are integers. -/
def Obligations.MnemonicsAreTheSeventeenNames : Prop :=
  (∀ (name : List Char) (mk : Reg → Reg → Word → Instr), mnemonicLookup name = some mk ↔
    (name = "HALT".toList ∧ mk = .halt) ∨ (name = "IN".toList ∧ mk = .inp) ∨
    (name = "OUT".toList ∧ mk = .out) ∨ (name = "ADD".toList ∧ mk = .add) ∨
    (name = "SUB".toList ∧ mk = .sub) ∨ (name = "MUL".toList ∧ mk = .mul) ∨
    (name = "DIV".toList ∧ mk = .div) ∨ (name = "LD".toList ∧ mk = .ld) ∨
    (name = "ST".toList ∧ mk = .st) ∨ (name = "LDA".toList ∧ mk = .lda) ∨
    (name = "LDC".toList ∧ mk = .ldc) ∨ (name = "JLT".toList ∧ mk = .jlt) ∨
    (name = "JLE".toList ∧ mk = .jle) ∨ (name = "JGT".toList ∧ mk = .jgt) ∨
    (name = "JGE".toList ∧ mk = .jge) ∨ (name = "JEQ".toList ∧ mk = .jeq) ∨
    (name = "JNE".toList ∧ mk = .jne)) ∧
  (∀ name ta tb tc : List Char, mnemonicLookup name = none →
    (∃ f, assembleRecord name ta tb tc = .error f) ∧
    (intToken ta ≠ none → intToken tb ≠ none → intToken tc ≠ none →
      assembleRecord name ta tb tc = .error .unknownMnemonic)) ∧
  (∀ name ∈ ["halt", "Add", "JMP"], mnemonicLookup name.toList = none)

/-- R115 (decision D20 of the spec): an integer token is an optional `-` before one or more decimal
digits, with its value in IntX; a record with anything else where an integer is expected is a load-time
fault. -/
def Obligations.IntegerTokensAreSignedDecimals : Prop :=
  (∀ (tok : List Char) (v : Int), intToken tok = some v ↔
    (-2 ^ 31 ≤ v ∧ v ≤ 2 ^ 31 - 1) ∧ ∃ ds, DecimalDigits ds ∧
      ((tok = ds ∧ v = decimalValue ds) ∨ (tok = '-' :: ds ∧ v = -decimalValue ds))) ∧
  (∀ name ta tb tc : List Char, (intToken ta = none ∨ intToken tb = none ∨ intToken tc = none) →
    ∃ f, assembleRecord name ta tb tc = .error f)

/-- The loader cuts the text at white space, reads the tokens four at a time as records, and accepts
exactly the texts of at most 1024 whole records that are each accepted; and exactly those boot. Derived
from 30_encoding.md section 7 (R113, R116, R119) and 70_reset_and_hazards.md section 2 (R258, R262);
which characters are white space is the model's choice (log entry 10). -/
def Obligations.LoaderReadsTheTextAsRecords : Prop :=
  (∀ text : String,
    tokens text = (text.toList.splitOnP Char.isWhitespace).filter (fun tok => !tok.isEmpty)) ∧
  (∀ (text : String) (is : List Instr), loadProgram text = .ok is ↔
    is.length ≤ 1024 ∧ ∃ records : List (List Char × List Char × List Char × List Char),
      tokens text = records.flatMap (fun r => [r.1, r.2.1, r.2.2.1, r.2.2.2]) ∧
      List.Forall₂ (fun r i => assembleRecord r.1 r.2.1 r.2.2.1 r.2.2.2 = .ok i) records is) ∧
  (∀ (text : String) (inp : List Word),
    (∃ s, boot text inp = .ok s) ↔ ∃ is, loadProgram text = .ok is)
end

