-- ==== Sys2Proof/Laws/Memory.lean ====
section
/-! SUPPORT. The laws of the stores: read after write, and the canonical form is kept. -/

namespace Sys2Proof.Machine

variable {w : Nat}

theorem Memory.read_insert_same (m : Memory w) (k : Nat) (v : BitVec w)
    (h : ∀ p ∈ m, p.1 ≠ k) : (Memory.insert m k v).read k = v := by
  induction m with
  | nil => simp [Memory.insert, Memory.read]
  | cons p m ih =>
    obtain ⟨b, u⟩ := p
    have hb : b ≠ k := h (b, u) (by simp)
    unfold Memory.insert
    split
    · simp [Memory.read]
    · simpa [Memory.read, hb] using ih fun p hp => h p (by simp [hp])

theorem Memory.read_insert_of_ne (m : Memory w) (k j : Nat) (v : BitVec w) (h : j ≠ k) :
    (Memory.insert m k v).read j = m.read j := by
  induction m with
  | nil => simp [Memory.insert, Memory.read, h.symm]
  | cons p m ih =>
    obtain ⟨b, u⟩ := p
    unfold Memory.insert
    split
    · simp [Memory.read, h.symm]
    · simp [Memory.read, ih]

theorem Memory.read_eq_zero (m : Memory w) (k : Nat) (h : ∀ p ∈ m, p.1 ≠ k) : m.read k = 0#w := by
  induction m with
  | nil => rfl
  | cons p m ih =>
    obtain ⟨b, u⟩ := p
    simp [Memory.read, h (b, u) (by simp), ih fun p hp => h p (by simp [hp])]

theorem Memory.read_filter_of_ne (m : Memory w) (k j : Nat) (h : j ≠ k) :
    Memory.read (m.filter fun p => p.1 != k) j = m.read j := by
  induction m with
  | nil => rfl
  | cons p m ih =>
    obtain ⟨b, u⟩ := p
    by_cases hb : b = k
    · subst hb; simp [Memory.read, h.symm, ih]
    · simp [Memory.read, hb, ih]

/-- A cell reads as what was last written to it, in every list of cells. -/
@[simp] theorem Memory.read_write_same (m : Memory w) (k : Nat) (v : BitVec w) :
    (m.write k v).read k = v := by
  have h : ∀ p ∈ m.filter (fun p => p.1 != k), p.1 ≠ k := by simp
  unfold Memory.write
  by_cases hv : v = 0#w
  · simp [hv, Memory.read_eq_zero _ k h]
  · simp [hv, Memory.read_insert_same _ k v h]

/-- A write leaves every other cell alone. -/
theorem Memory.read_write_of_ne (m : Memory w) (k j : Nat) (v : BitVec w) (h : j ≠ k) :
    (m.write k v).read j = m.read j := by
  unfold Memory.write
  by_cases hv : v = 0#w
  · simp [hv, Memory.read_filter_of_ne m k j h]
  · simp [hv, Memory.read_insert_of_ne _ k j v h, Memory.read_filter_of_ne m k j h]

theorem Memory.mem_insert (m : Memory w) (k : Nat) (v : BitVec w) (p : Nat × BitVec w) :
    p ∈ Memory.insert m k v ↔ p = (k, v) ∨ p ∈ m := by
  induction m with
  | nil => simp [Memory.insert]
  | cons q m ih =>
    obtain ⟨b, u⟩ := q
    unfold Memory.insert
    split
    · simp
    · simp only [List.mem_cons, ih]; tauto

theorem Memory.pairwise_insert (m : Memory w) (k : Nat) (v : BitVec w)
    (hm : m.Pairwise (fun p q => p.1 < q.1)) (h : ∀ p ∈ m, p.1 ≠ k) :
    (Memory.insert m k v).Pairwise (fun p q => p.1 < q.1) := by
  induction m with
  | nil => simp [Memory.insert]
  | cons q m ih =>
    obtain ⟨b, u⟩ := q
    rw [List.pairwise_cons] at hm
    have hb : b ≠ k := h (b, u) (by simp)
    unfold Memory.insert
    split
    · next hlt =>
      refine List.pairwise_cons.mpr ⟨?_, List.pairwise_cons.mpr hm⟩
      intro p hp
      rcases List.mem_cons.mp hp with rfl | hp
      · exact hlt
      · exact hlt.trans (hm.1 p hp)
    · next hge =>
      refine List.pairwise_cons.mpr ⟨?_, ih hm.2 fun p hp => h p (by simp [hp])⟩
      intro p hp
      rcases (Memory.mem_insert m k v p).mp hp with rfl | hp
      · show b < k
        omega
      · exact hm.1 p hp

theorem Memory.wf_nil (size : Nat) : Memory.wf size ([] : Memory w) :=
  ⟨List.Pairwise.nil, fun _ hp => absurd hp List.not_mem_nil⟩

/-- The one memory operation that changes a store keeps its canonical form. -/
theorem Memory.wf_write (size : Nat) (m : Memory w) (k : Nat) (v : BitVec w)
    (hm : Memory.wf size m) (hk : k < size) : Memory.wf size (m.write k v) := by
  have hp : (m.filter fun p => p.1 != k).Pairwise (fun p q => p.1 < q.1) := hm.1.filter _
  have hk' : ∀ p ∈ m.filter (fun p => p.1 != k), p.1 ≠ k := by simp
  have hb : ∀ p ∈ m.filter (fun p => p.1 != k), p.1 < size ∧ p.2 ≠ 0#w :=
    fun p h => hm.2 p (List.mem_of_mem_filter h)
  unfold Memory.write
  by_cases hv : v = 0#w
  · simp only [hv, if_true]
    exact ⟨hp, hb⟩
  · simp only [hv, if_false]
    refine ⟨Memory.pairwise_insert _ k v hp hk', fun p h => ?_⟩
    rcases (Memory.mem_insert _ k v p).mp h with rfl | h
    · exact ⟨hk, hv⟩
    · exact hb p h

end Sys2Proof.Machine
end

