-- ==== Sys2Proof/Laws/State.lean ====
section
/-! SUPPORT. One lemma per field per update of State, and what reading a register gives after each
update, so that no proof unfolds a record update. -/

namespace Sys2Proof.Machine

/-! ### Fields -/

@[simp] theorem State.setReg_imem (s : State) (r : Reg) (v : Word) : (s.setReg r v).imem = s.imem := rfl
@[simp] theorem State.setReg_dmem (s : State) (r : Reg) (v : Word) : (s.setReg r v).dmem = s.dmem := rfl
@[simp] theorem State.setReg_runState (s : State) (r : Reg) (v : Word) : (s.setReg r v).runState = s.runState := rfl
@[simp] theorem State.setReg_faultKind (s : State) (r : Reg) (v : Word) : (s.setReg r v).faultKind = s.faultKind := rfl
@[simp] theorem State.setReg_input (s : State) (r : Reg) (v : Word) : (s.setReg r v).input = s.input := rfl
@[simp] theorem State.setReg_output (s : State) (r : Reg) (v : Word) : (s.setReg r v).output = s.output := rfl

@[simp] theorem State.setPc_imem (s : State) (v : Word) : (s.setPc v).imem = s.imem := rfl
@[simp] theorem State.setPc_dmem (s : State) (v : Word) : (s.setPc v).dmem = s.dmem := rfl
@[simp] theorem State.setPc_runState (s : State) (v : Word) : (s.setPc v).runState = s.runState := rfl
@[simp] theorem State.setPc_faultKind (s : State) (v : Word) : (s.setPc v).faultKind = s.faultKind := rfl
@[simp] theorem State.setPc_input (s : State) (v : Word) : (s.setPc v).input = s.input := rfl
@[simp] theorem State.setPc_output (s : State) (v : Word) : (s.setPc v).output = s.output := rfl

@[simp] theorem State.advance_imem (s : State) : s.advance.imem = s.imem := rfl
@[simp] theorem State.advance_dmem (s : State) : s.advance.dmem = s.dmem := rfl
@[simp] theorem State.advance_runState (s : State) : s.advance.runState = s.runState := rfl
@[simp] theorem State.advance_faultKind (s : State) : s.advance.faultKind = s.faultKind := rfl
@[simp] theorem State.advance_input (s : State) : s.advance.input = s.input := rfl
@[simp] theorem State.advance_output (s : State) : s.advance.output = s.output := rfl

@[simp] theorem State.raise_x (s : State) (f : FaultKind) : (s.raise f).x = s.x := rfl
@[simp] theorem State.raise_imem (s : State) (f : FaultKind) : (s.raise f).imem = s.imem := rfl
@[simp] theorem State.raise_dmem (s : State) (f : FaultKind) : (s.raise f).dmem = s.dmem := rfl
@[simp] theorem State.raise_input (s : State) (f : FaultKind) : (s.raise f).input = s.input := rfl
@[simp] theorem State.raise_output (s : State) (f : FaultKind) : (s.raise f).output = s.output := rfl

@[simp] theorem State.halt_x (s : State) : s.halt.x = s.x := rfl
@[simp] theorem State.halt_imem (s : State) : s.halt.imem = s.imem := rfl
@[simp] theorem State.halt_dmem (s : State) : s.halt.dmem = s.dmem := rfl
@[simp] theorem State.halt_faultKind (s : State) : s.halt.faultKind = s.faultKind := rfl
@[simp] theorem State.halt_input (s : State) : s.halt.input = s.input := rfl
@[simp] theorem State.halt_output (s : State) : s.halt.output = s.output := rfl

@[simp] theorem State.raise_runState (s : State) (f : FaultKind) : (s.raise f).runState = .faulted := rfl
@[simp] theorem State.raise_faultKind (s : State) (f : FaultKind) : (s.raise f).faultKind = some f := rfl
@[simp] theorem State.halt_runState (s : State) : s.halt.runState = .halted := rfl

@[simp] theorem putOutput_x (s : State) (v : Word) : (putOutput s v).x = s.x := rfl
@[simp] theorem putOutput_imem (s : State) (v : Word) : (putOutput s v).imem = s.imem := rfl
@[simp] theorem putOutput_dmem (s : State) (v : Word) : (putOutput s v).dmem = s.dmem := rfl
@[simp] theorem putOutput_runState (s : State) (v : Word) : (putOutput s v).runState = s.runState := rfl
@[simp] theorem putOutput_faultKind (s : State) (v : Word) : (putOutput s v).faultKind = s.faultKind := rfl
@[simp] theorem putOutput_input (s : State) (v : Word) : (putOutput s v).input = s.input := rfl
@[simp] theorem putOutput_output (s : State) (v : Word) :
    (putOutput s v).output = s.output ++ [v] := rfl

@[simp] theorem supplyInput_x (s : State) (vs : List Word) : (supplyInput s vs).x = s.x := rfl
@[simp] theorem supplyInput_imem (s : State) (vs : List Word) : (supplyInput s vs).imem = s.imem := rfl
@[simp] theorem supplyInput_dmem (s : State) (vs : List Word) : (supplyInput s vs).dmem = s.dmem := rfl
@[simp] theorem supplyInput_runState (s : State) (vs : List Word) : (supplyInput s vs).runState = s.runState := rfl
@[simp] theorem supplyInput_faultKind (s : State) (vs : List Word) : (supplyInput s vs).faultKind = s.faultKind := rfl
@[simp] theorem supplyInput_output (s : State) (vs : List Word) : (supplyInput s vs).output = s.output := rfl
@[simp] theorem supplyInput_input (s : State) (vs : List Word) :
    (supplyInput s vs).input = s.input ++ vs := rfl

/-! ### Registers -/

@[simp] theorem State.reg_mk (x : Vector Word 8) (im dm rs fk i o) (r : Reg) :
    (State.mk x im dm rs fk i o).reg r = x.get r := rfl

theorem State.reg_setReg (s : State) (a r : Reg) (v : Word) :
    (s.setReg a v).reg r = if a = r then v else s.reg r := by
  simp only [State.reg, State.setReg, Vector.get_eq_getElem, Vector.getElem_set, Fin.ext_iff]

@[simp] theorem State.reg_setReg_same (s : State) (a : Reg) (v : Word) :
    (s.setReg a v).reg a = v := by
  simp [State.reg_setReg]

theorem State.reg_setReg_of_ne (s : State) (a r : Reg) (v : Word) (h : a ≠ r) :
    (s.setReg a v).reg r = s.reg r := by
  simp [State.reg_setReg, h]

theorem State.pc_eq_reg (s : State) : s.pc = s.reg Config.pcReg := rfl

@[simp] theorem State.pc_setPc (s : State) (v : Word) : (s.setPc v).pc = v := by
  simp [State.pc, State.setPc]

theorem State.reg_setPc_of_ne (s : State) (r : Reg) (v : Word) (h : r ≠ Config.pcReg) :
    (s.setPc v).reg r = s.reg r :=
  s.reg_setReg_of_ne _ _ _ h.symm

@[simp] theorem State.pc_advance (s : State) : s.advance.pc = wrap (s.pc.toInt + 1) := by
  simp [State.advance, aluAdd]

theorem State.reg_advance_of_ne (s : State) (r : Reg) (h : r ≠ Config.pcReg) :
    s.advance.reg r = s.reg r :=
  s.reg_setPc_of_ne _ _ h

theorem State.pc_setReg (s : State) (a : Reg) (v : Word) :
    (s.setReg a v).pc = if a = Config.pcReg then v else s.pc :=
  s.reg_setReg _ _ _

@[simp] theorem State.reg_raise (s : State) (f : FaultKind) (r : Reg) :
    (s.raise f).reg r = s.reg r := rfl

@[simp] theorem State.pc_raise (s : State) (f : FaultKind) : (s.raise f).pc = s.pc := rfl

@[simp] theorem State.reg_halt (s : State) (r : Reg) : s.halt.reg r = s.reg r := rfl

@[simp] theorem State.pc_halt (s : State) : s.halt.pc = s.pc := rfl

@[simp] theorem reg_putOutput (s : State) (v : Word) (r : Reg) :
    (putOutput s v).reg r = s.reg r := rfl

@[simp] theorem pc_putOutput (s : State) (v : Word) : (putOutput s v).pc = s.pc := rfl

@[simp] theorem reg_supplyInput (s : State) (vs : List Word) (r : Reg) :
    (supplyInput s vs).reg r = s.reg r := rfl

@[simp] theorem pc_supplyInput (s : State) (vs : List Word) : (supplyInput s vs).pc = s.pc := rfl

end Sys2Proof.Machine
end

