-- ==== Sys2Proof/Laws/Ops.lean ====
section
/-! SUPPORT. For each shared operation one lemma that says all it can do; proofs cite it and do not
unfold the operation. -/

namespace Sys2Proof.Machine

/-! ### Addresses -/

theorem inBounds_iff (size : Nat) (addr : Word) :
    inBounds size addr = true ↔ 0 ≤ addr.toInt ∧ addr.toInt < size := by
  simp [inBounds]

theorem cellIndex_lt (size : Nat) (addr : Word) (h : inBounds size addr = true) :
    cellIndex addr < size := by
  rw [inBounds_iff] at h
  unfold cellIndex
  omega

/-! ### Arithmetic -/

theorem toInt_wrap (v : Int) : (wrap v).toInt = v.bmod (2 ^ 32) := by
  simp [wrap, BitVec.toInt_ofInt]

theorem wrap_toInt (v : Word) : wrap v.toInt = v := by
  simp [wrap]

theorem aluDiv_of_ne (n d : Word) (h : d.toInt ≠ 0) :
    aluDiv n d = some (wrap (n.toInt.tdiv d.toInt)) := by
  simp [aluDiv, h]

theorem aluDiv_of_eq (n d : Word) (h : d.toInt = 0) : aluDiv n d = none := by
  simp [aluDiv, h]

/-! ### Operands -/

theorem isRegIndex_iff (v : Int) : isRegIndex v = true ↔ 0 ≤ v ∧ v < 8 := by
  simp [isRegIndex]

theorem regOperand_eq_some_iff (c : Word) (r : Reg) :
    regOperand c = some r ↔ c.toInt = (r.val : Int) := by
  unfold regOperand
  have hr := r.isLt
  split
  · next h =>
    rw [isRegIndex_iff] at h
    simp only [Option.some.injEq, Fin.ext_iff, Fin.ofNat]
    omega
  · next h =>
    rw [isRegIndex_iff] at h
    simp only [reduceCtorEq, false_iff]
    omega

theorem regOperand_eq_none_iff (c : Word) :
    regOperand c = none ↔ ¬ (0 ≤ c.toInt ∧ c.toInt < 8) := by
  unfold regOperand
  split
  · next h => rw [isRegIndex_iff] at h; simp [h]
  · next h => rw [isRegIndex_iff] at h; simpa using h

theorem withSources_of_reg (s : State) (b r : Reg) (c : Word) (k : Word → Word → Result)
    (h : c.toInt = (r.val : Int)) : withSources s b c k = k (s.reg b) (s.reg r) := by
  simp [withSources, (regOperand_eq_some_iff c r).mpr h]

theorem withSources_refused (s : State) (b : Reg) (c : Word) (k : Word → Word → Result)
    (h : ¬ (0 ≤ c.toInt ∧ c.toInt < 8)) :
    withSources s b c k = .refused .operandNotRegister := by
  simp [withSources, (regOperand_eq_none_iff c).mpr h]

/-- The two-source form refuses, or runs its handler on the two registers that the operands name. -/
theorem withSources_cases (s : State) (b : Reg) (c : Word) (k : Word → Word → Result) :
    (¬ (0 ≤ c.toInt ∧ c.toInt < 8) ∧ withSources s b c k = .refused .operandNotRegister) ∨
      ∃ r : Reg, c.toInt = (r.val : Int) ∧ withSources s b c k = k (s.reg b) (s.reg r) := by
  cases h : regOperand c with
  | none => exact .inl ⟨(regOperand_eq_none_iff c).mp h, by simp [withSources, h]⟩
  | some r => exact .inr ⟨r, (regOperand_eq_some_iff c r).mp h, by simp [withSources, h]⟩

/-! ### Access primitives -/

theorem fetchWord_cases (s : State) (addr : Word) :
    (inBounds Config.imemSize addr = true ∧ fetchWord s addr = .ok (s.imem.read (cellIndex addr))) ∨
      (inBounds Config.imemSize addr = false ∧
        fetchWord s addr = .error .instructionMemoryFault) := by
  unfold fetchWord
  cases inBounds Config.imemSize addr <;> simp

theorem memRead_cases (s : State) (addr : Word) :
    (inBounds Config.dmemSize addr = true ∧ memRead s addr = .ok (s.dmem.read (cellIndex addr))) ∨
      (inBounds Config.dmemSize addr = false ∧ memRead s addr = .error .dataMemoryFault) := by
  unfold memRead
  cases inBounds Config.dmemSize addr <;> simp

theorem memWrite_cases (s : State) (addr v : Word) :
    (inBounds Config.dmemSize addr = true ∧
        memWrite s addr v = .ok { s with dmem := s.dmem.write (cellIndex addr) v }) ∨
      (inBounds Config.dmemSize addr = false ∧ memWrite s addr v = .error .dataMemoryFault) := by
  unfold memWrite
  cases inBounds Config.dmemSize addr <;> simp

theorem takeInput_cases (s : State) :
    (s.input = [] ∧ takeInput s = none) ∨
      ∃ v rest, s.input = v :: rest ∧ takeInput s = some (v, { s with input := rest }) := by
  unfold takeInput
  cases h : s.input with
  | nil => exact .inl ⟨rfl, rfl⟩
  | cons v rest => exact .inr ⟨v, rest, rfl, rfl⟩

/-! ### Branches -/

/-- A branch faults on its target, is taken, or changes nothing. -/
theorem branchOn_cases (k : Cond) (a b : Reg) (c : Word) (s : State) :
    (inBounds Config.imemSize (effAddr s b c) = false ∧
        branchOn k a b c s = .next (s.raise .instructionMemoryFault)) ∨
      (inBounds Config.imemSize (effAddr s b c) = true ∧ k.holds (s.reg a) = true ∧
        branchOn k a b c s = .next (s.setPc (effAddr s b c))) ∨
      (inBounds Config.imemSize (effAddr s b c) = true ∧ k.holds (s.reg a) = false ∧
        branchOn k a b c s = .next s) := by
  cases hb : inBounds Config.imemSize (effAddr s b c) <;> cases hk : k.holds (s.reg a) <;>
    simp [branchOn, faultWith, hb, hk]

/-! ### Fetch and step -/

/-- The fetch and the decode of a step: out of range, unknown tag, or an instruction. -/
theorem fetchInstr_cases (s : State) :
    (inBounds Config.imemSize s.pc = false ∧
        fetchInstr s = .error .instructionMemoryFault) ∨
      (inBounds Config.imemSize s.pc = true ∧ (∃ t, decode (wordAtPc s) = .error (.unknownTag t)) ∧
        fetchInstr s = .error .noSuchInstruction) ∨
      ∃ i, inBounds Config.imemSize s.pc = true ∧ decode (wordAtPc s) = .ok i ∧
        fetchInstr s = .ok i := by
  unfold fetchInstr
  rcases fetchWord_cases s s.pc with ⟨hb, hw⟩ | ⟨hb, hw⟩
  · right
    cases hd : decode (wordAtPc s) with
    | error e => obtain ⟨t⟩ := e; exact .inl ⟨hb, ⟨t, rfl⟩, by simp [hw, hd]⟩
    | ok i => exact .inr ⟨i, hb, rfl, by simp [hw, hd]⟩
  · exact .inl ⟨hb, by simp [hw]⟩

/-- A step stops in a terminal state, faults in fetch or dispatch, or runs the instruction. -/
theorem step_cases (s : State) :
    (s.runState = .halted ∧ step s = .fault .engineHalted) ∨
      (s.runState = .faulted ∧ step s = .fault .engineFaulted) ∨
      (s.runState = .running ∧ ∃ f, fetchInstr s = .error f ∧ step s = .next (s.raise f)) ∨
      (s.runState = .running ∧ ∃ i, fetchInstr s = .ok i ∧ step s = exec i s) := by
  unfold step
  cases hr : s.runState with
  | halted => simp
  | faulted => simp
  | running =>
    cases hf : fetchInstr s with
    | error f => simp [faultWith]
    | ok i => simp

/-- A Running state whose pc names a cell that holds an instruction runs it. -/
theorem step_of_decode (s : State) (i : Instr) (h : Fetching s)
    (hd : decode (wordAtPc s) = .ok i) : step s = exec i s := by
  have hb : inBounds Config.imemSize s.pc = true := (inBounds_iff _ _).mpr h.2
  have hf : fetchInstr s = .ok i := by
    rcases fetchInstr_cases s with ⟨h1, _⟩ | ⟨_, ⟨t, h2⟩, _⟩ | ⟨j, _, h2, h3⟩
    · simp [hb] at h1
    · simp [hd] at h2
    · rw [hd] at h2
      cases h2
      exact h3
  unfold step
  simp [h.1, hf]

/-- In a terminal state there is no next state. -/
theorem step_terminal (s t : State) (h : s.runState ≠ .running) : step s ≠ .next t := by
  unfold step
  cases hr : s.runState <;> simp_all

/-! ### Runs -/

@[simp] theorem runSteps_zero (s : State) : runSteps 0 s = .next s := rfl

theorem runSteps_succ_of_next (n : Nat) (s t : State) (h : step s = .next t) :
    runSteps (n + 1) s = runSteps n t := by
  simp [runSteps, h]

theorem runSteps_succ_of_fault (n : Nat) (s : State) (f : Fault) (h : step s = .fault f) :
    runSteps (n + 1) s = .fault f := by
  simp [runSteps, h]

theorem runSteps_succ_of_refused (n : Nat) (s : State) (r : Refusal) (h : step s = .refused r) :
    runSteps (n + 1) s = .refused r := by
  simp [runSteps, h]

/-- `runSteps` is the host's run of this machine. -/
theorem runSteps_eq_run (n : Nat) (s : State) : runSteps n s = Host.Core.run Sys2Proof.core n s := by
  induction n generalizing s with
  | zero => rfl
  | succ n ih =>
    cases h : step s with
    | next t =>
      have h' : Sys2Proof.core.step s = .next t := h
      simp only [runSteps, h, Host.Core.run, h']
      exact ih t
    | fault f =>
      have h' : Sys2Proof.core.step s = .fault f := h
      simp only [runSteps, h, Host.Core.run, h']
      rfl
    | refused r =>
      have h' : Sys2Proof.core.step s = .refused r := h
      simp only [runSteps, h, Host.Core.run, h']
      rfl

/-! ### Load port -/

theorem loadWords_x (s : State) (k : Nat) (ws : List InstrWord) : (loadWords s k ws).x = s.x := by
  induction ws generalizing s k with
  | nil => rfl
  | cons w ws ih => simp [loadWords, ih, loadCell]

/-- Loading writes instruction cells alone. -/
theorem loadWords_eq (s : State) (k : Nat) (ws : List InstrWord) :
    loadWords s k ws = { s with imem := (loadWords s k ws).imem } := by
  induction ws generalizing s k with
  | nil => rfl
  | cons w ws ih =>
    rw [loadWords, ih]
    simp [loadCell]

end Sys2Proof.Machine
end

