-- ==== Sys2Proof/Laws/Exec.lean ====
section
/-! SUPPORT. What each arm of `exec` is, and the inversion lemma of `exec`: if an instruction answers a
next state, it is one of these. Frames and invariants are derived from it, without unfolding the
meanings again. -/

namespace Sys2Proof.Machine

/-! ### The arms, over the shared operations -/

section Arms

variable (a b : Reg) (c : Word) (s : State)

theorem exec_halt : exec (.halt a b c) s = .next s.halt := rfl

theorem exec_inp_nil (h : s.input = []) : exec (.inp a b c) s = .next s := by
  simp [exec, execIn, takeInput, blocked, h]

theorem exec_inp_cons (v : Word) (rest : List Word) (h : s.input = v :: rest) :
    exec (.inp a b c) s = .next (State.advance ({ s with input := rest }.setReg a v)) := by
  simp [exec, execIn, takeInput, succeedWith, succeed, h]

theorem exec_out : exec (.out a b c) s = .next (putOutput s (s.reg a)).advance := rfl

theorem exec_add : exec (.add a b c) s =
    withSources s b c fun m n => .next (s.setReg a (aluAdd m n)).advance := rfl

theorem exec_sub : exec (.sub a b c) s =
    withSources s b c fun m n => .next (s.setReg a (aluSub m n)).advance := rfl

theorem exec_mul : exec (.mul a b c) s =
    withSources s b c fun m n => .next (s.setReg a (aluMul m n)).advance := rfl

theorem exec_div : exec (.div a b c) s = withSources s b c fun n d =>
    if d.toInt = 0 then .next (s.raise .divideByZero)
    else .next (s.setReg a (wrap (n.toInt.tdiv d.toInt))).advance := by
  simp only [exec, execDiv]
  congr 1
  funext n d
  by_cases hd : d.toInt = 0
  · simp [aluDiv, hd, faultWith]
  · simp [aluDiv, hd, succeedWith, succeed]

theorem exec_ld_of_inBounds (h : inBounds Config.dmemSize (effAddr s b c) = true) :
    exec (.ld a b c) s =
      .next (s.setReg a (s.dmem.read (cellIndex (effAddr s b c)))).advance := by
  simp [exec, execLd, memRead, h, succeedWith, succeed]

theorem exec_ld_of_not_inBounds (h : inBounds Config.dmemSize (effAddr s b c) = false) :
    exec (.ld a b c) s = .next (s.raise .dataMemoryFault) := by
  simp [exec, execLd, memRead, h, faultWith]

theorem exec_st_of_inBounds (h : inBounds Config.dmemSize (effAddr s b c) = true) :
    exec (.st a b c) s = .next
      (State.advance { s with dmem := s.dmem.write (cellIndex (effAddr s b c)) (s.reg a) }) := by
  simp [exec, execSt, memWrite, h, succeed]

theorem exec_st_of_not_inBounds (h : inBounds Config.dmemSize (effAddr s b c) = false) :
    exec (.st a b c) s = .next (s.raise .dataMemoryFault) := by
  simp [exec, execSt, memWrite, h, faultWith]

theorem exec_lda : exec (.lda a b c) s = .next (s.setReg a (effAddr s b c)).advance := rfl

theorem exec_ldc : exec (.ldc a b c) s = .next (s.setReg a c).advance := rfl

theorem exec_branch (i : Instr) (k : Cond) (h : branchCond i = some k) :
    exec i s = branchOn k i.operands.1 i.operands.2.1 i.operands.2.2 s := by
  cases i <;> simp only [branchCond, reduceCtorEq, Option.some.injEq] at h <;> subst h <;> rfl

end Arms

/-! ### The inversion lemma -/

/-- All that an instruction can do to a state. -/
inductive ExecEffect (i : Instr) (s : State) : State → Prop where
  /-- HALT -/
  | halted (h : isHalt i = true) : ExecEffect i s s.halt
  /-- a branch whose target is out of range -/
  | raisedTarget (k : Cond) (h : branchCond i = some k)
      (hb : inBounds Config.imemSize (addrOf i s) = false) :
      ExecEffect i s (s.raise .instructionMemoryFault)
  /-- a data address out of range -/
  | raisedData (a b : Reg) (c : Word) (h : i = .ld a b c ∨ i = .st a b c)
      (hb : inBounds Config.dmemSize (effAddr s b c) = false) :
      ExecEffect i s (s.raise .dataMemoryFault)
  /-- DIV by 0 -/
  | raisedDivide (a b r : Reg) (c : Word) (h : i = .div a b c) (hc : c.toInt = (r.val : Int))
      (hz : (s.reg r).toInt = 0) : ExecEffect i s (s.raise .divideByZero)
  /-- a blocked IN, or a branch that is not taken -/
  | unchanged (h : (∃ a b c, i = .inp a b c ∧ s.input = []) ∨
      ∃ k, branchCond i = some k ∧ k.holds (s.reg i.operands.1) = false ∧
        inBounds Config.imemSize (addrOf i s) = true) : ExecEffect i s s
  /-- a register is written and the pc advances -/
  | wrote (a : Reg) (v : Word) (h : destOf i = some a) (hi : ∀ p q r, i ≠ .inp p q r) :
      ExecEffect i s (s.setReg a v).advance
  /-- IN with a value waiting -/
  | took (a b : Reg) (c v : Word) (rest : List Word) (h : i = .inp a b c)
      (hin : s.input = v :: rest) :
      ExecEffect i s (State.advance ({ s with input := rest }.setReg a v))
  /-- OUT -/
  | put (a b : Reg) (c : Word) (h : i = .out a b c) :
      ExecEffect i s (putOutput s (s.reg a)).advance
  /-- ST in range -/
  | stored (a b : Reg) (c : Word) (h : i = .st a b c)
      (hb : inBounds Config.dmemSize (effAddr s b c) = true) :
      ExecEffect i s
        (State.advance { s with dmem := s.dmem.write (cellIndex (effAddr s b c)) (s.reg a) })
  /-- a taken branch -/
  | jumped (k : Cond) (h : branchCond i = some k) (ht : k.holds (s.reg i.operands.1) = true)
      (hb : inBounds Config.imemSize (addrOf i s) = true) : ExecEffect i s (s.setPc (addrOf i s))

theorem branch_effect (i : Instr) (k : Cond) (s t : State) (hk : branchCond i = some k)
    (h : exec i s = .next t) : ExecEffect i s t := by
  rw [exec_branch s i k hk] at h
  rcases branchOn_cases k i.operands.1 i.operands.2.1 i.operands.2.2 s with
    ⟨hb, h'⟩ | ⟨hb, ht, h'⟩ | ⟨hb, ht, h'⟩ <;> rw [h'] at h <;> cases h
  · exact .raisedTarget k hk hb
  · exact .jumped k hk ht hb
  · exact .unchanged (.inr ⟨k, hk, ht, hb⟩)

/-- If an instruction answers a next state, that state is one of `ExecEffect`. -/
theorem exec_effect (i : Instr) (s t : State) (h : exec i s = .next t) : ExecEffect i s t := by
  have sources : ∀ a b c (f : Word → Word → Word), destOf i = some a →
      (∀ p q r, i ≠ .inp p q r) →
      withSources s b c (fun m n => .next (s.setReg a (f m n)).advance) = .next t →
      ExecEffect i s t := by
    intro a b c f hd hi h
    rcases withSources_cases s b c fun m n => .next (s.setReg a (f m n)).advance with
      ⟨_, h'⟩ | ⟨r, _, h'⟩ <;> rw [h'] at h <;> cases h
    exact .wrote a _ hd hi
  cases i with
  | halt a b c => cases h; exact .halted rfl
  | inp a b c =>
    cases hin : s.input with
    | nil => rw [exec_inp_nil a b c s hin] at h; cases h; exact .unchanged (.inl ⟨a, b, c, rfl, hin⟩)
    | cons v rest =>
      rw [exec_inp_cons a b c s v rest hin] at h
      cases h
      exact .took a b c v rest rfl hin
  | out a b c => cases h; exact .put a b c rfl
  | add a b c => exact sources a b c aluAdd rfl (by simp) h
  | sub a b c => exact sources a b c aluSub rfl (by simp) h
  | mul a b c => exact sources a b c aluMul rfl (by simp) h
  | div a b c =>
    rw [exec_div] at h
    rcases withSources_cases s b c fun n d =>
        if d.toInt = 0 then .next (s.raise .divideByZero)
        else .next (s.setReg a (wrap (n.toInt.tdiv d.toInt))).advance with
      ⟨_, h'⟩ | ⟨r, hc, h'⟩ <;> rw [h'] at h
    · cases h
    · by_cases hz : (s.reg r).toInt = 0
      · rw [if_pos hz] at h
        cases h
        exact .raisedDivide a b r c rfl hc hz
      · rw [if_neg hz] at h
        cases h
        exact .wrote a _ rfl (by simp)
  | ld a b c =>
    cases hb : inBounds Config.dmemSize (effAddr s b c) with
    | false =>
      rw [exec_ld_of_not_inBounds a b c s hb] at h
      cases h
      exact .raisedData a b c (.inl rfl) hb
    | true =>
      rw [exec_ld_of_inBounds a b c s hb] at h
      cases h
      exact .wrote a _ rfl (by simp)
  | st a b c =>
    cases hb : inBounds Config.dmemSize (effAddr s b c) with
    | false =>
      rw [exec_st_of_not_inBounds a b c s hb] at h
      cases h
      exact .raisedData a b c (.inr rfl) hb
    | true =>
      rw [exec_st_of_inBounds a b c s hb] at h
      cases h
      exact .stored a b c rfl hb
  | lda a b c => cases h; exact .wrote a _ rfl (by simp)
  | ldc a b c => cases h; exact .wrote a _ rfl (by simp)
  | jlt a b c => exact branch_effect _ .lt s t rfl h
  | jle a b c => exact branch_effect _ .le s t rfl h
  | jgt a b c => exact branch_effect _ .gt s t rfl h
  | jge a b c => exact branch_effect _ .ge s t rfl h
  | jeq a b c => exact branch_effect _ .eq s t rfl h
  | jne a b c => exact branch_effect _ .ne s t rfl h

end Sys2Proof.Machine
end

