-- ==== Sys2Proof/Laws/Loader.lean ====
section
/-! SUPPORT. What each operation of the loader can answer; proofs cite it and do not unfold the
operation. -/

namespace Sys2Proof.Machine

/-- A digit's character code. -/
theorem isDigit_iff (ch : Char) : ch.isDigit = true ↔ 48 ≤ ch.toNat ∧ ch.toNat ≤ 57 := by
  unfold Char.isDigit
  simp only [ge_iff_le, UInt32.le_iff_toNat_le, Bool.and_eq_true, decide_eq_true_eq]
  exact Iff.rfl

/-- Digits read on from `acc`: all of them digits, the value their decimal value below `acc`. -/
theorem digitsFrom_eq_some_iff (acc n : Nat) (ds : List Char) :
    digitsFrom acc ds = some n ↔
      (∀ ch ∈ ds, 48 ≤ ch.toNat ∧ ch.toNat ≤ 57) ∧
        n = acc * 10 ^ ds.length + Nat.ofDigits 10 (ds.reverse.map fun ch => ch.toNat - 48) := by
  induction ds generalizing acc with
  | nil => simp [digitsFrom, eq_comm]
  | cons ch ds ih =>
    unfold digitsFrom
    by_cases h : ch.isDigit = true
    · have h' := (isDigit_iff ch).mp h
      have hz : '0'.toNat = 48 := rfl
      rw [if_pos h, ih, hz]
      simp only [List.mem_cons, forall_eq_or_imp, h', and_self, true_and, List.reverse_cons,
        List.map_append, Nat.ofDigits_append, List.length_cons, List.length_map,
        List.length_reverse, List.map_cons, List.map_nil, Nat.ofDigits_singleton, pow_succ]
      refine and_congr_right fun _ => ?_
      constructor <;> (rintro rfl; ring)
    · rw [if_neg h]
      simp only [reduceCtorEq, List.mem_cons, forall_eq_or_imp, false_iff, not_and]
      exact fun h1 => absurd ((isDigit_iff ch).mpr h1.1) h

/-- An integer token is a signed decimal in IntX. -/
theorem intToken_eq_some_iff (tok : List Char) (v : Int) :
    intToken tok = some v ↔ (-2 ^ 31 ≤ v ∧ v ≤ 2 ^ 31 - 1) ∧ signedDecimal tok = some v := by
  unfold intToken
  cases signedDecimal tok with
  | none => simp
  | some w =>
    dsimp only
    split
    · next h => simp only [Option.some.injEq]; exact ⟨fun e => ⟨e ▸ h, e⟩, And.right⟩
    · next h =>
      simp only [reduceCtorEq, Option.some.injEq, false_iff, not_and]
      rintro h1 rfl
      exact h h1

/-- A known mnemonic is a row of the table. -/
theorem mem_mnemonicTable_of_lookup (name : List Char) (mk : Reg → Reg → Word → Instr)
    (h : mnemonicLookup name = some mk) : ∃ n : String, n.toList = name ∧ (n, mk) ∈ mnemonicTable := by
  unfold mnemonicLookup at h
  rw [Option.map_eq_some_iff] at h
  obtain ⟨⟨n, _⟩, h1, rfl⟩ := h
  exact ⟨n, by simpa using List.find?_some h1, List.mem_of_find?_eq_some h1⟩

/-- A loaded program is an assembled one that fits the instruction store. -/
theorem loadProgram_eq_ok_iff (text : String) (is : List Instr) :
    loadProgram text = .ok is ↔ assemble (tokens text) = .ok is ∧ is.length ≤ 1024 := by
  unfold loadProgram
  cases assemble (tokens text) with
  | error f => simp
  | ok js =>
    dsimp only
    split
    · next h => simp only [Except.ok.injEq]; exact ⟨fun e => ⟨e, e ▸ h⟩, And.left⟩
    · next h =>
      simp only [reduceCtorEq, Except.ok.injEq, false_iff, not_and]
      rintro rfl
      exact h

/-- The boot fails as the loading fails, and otherwise places the program's words from cell 0. -/
theorem boot_eq_ok_iff (text : String) (inp : List Word) (s : State) :
    boot text inp = .ok s ↔
      ∃ is, loadProgram text = .ok is ∧ s = loadWords (setup inp) 0 (is.map encode) := by
  unfold boot
  cases loadProgram text with
  | error f => simp
  | ok js => simp [eq_comm]

end Sys2Proof.Machine
end

