-- ==== Sys2Proof/Laws/PerInstr.lean ====
section
/-! SUPPORT. The family of statements made per instruction: the class and the branches as range tests of
the tag (30_encoding.md R100). -/

namespace Sys2Proof.Laws.ClassOfTag

/-- With the numbering of 30_encoding.md R96 the class is a range test of the tag: 0 to 6 RR, 7 and 8 RM,
9 to 16 RA, of which 11 to 16 are the conditional branches (R100). -/
def Statement (i : Instr) : Prop :=
  (i.addrClass = .rr ↔ tagOf i ≤ 6) ∧ (i.addrClass = .rm ↔ 7 ≤ tagOf i ∧ tagOf i ≤ 8) ∧
  (i.addrClass = .ra ↔ 9 ≤ tagOf i ∧ tagOf i ≤ 16) ∧
  ((Machine.branchCond i).isSome ↔ 11 ≤ tagOf i ∧ tagOf i ≤ 16)

section Instructions

variable (a b : Reg) (c : Word)

theorem halt : Statement (.halt a b c) := by
  simp [Statement, Instr.addrClass, tagOf, Machine.branchCond]

theorem inp : Statement (.inp a b c) := by
  simp [Statement, Instr.addrClass, tagOf, Machine.branchCond]

theorem out : Statement (.out a b c) := by
  simp [Statement, Instr.addrClass, tagOf, Machine.branchCond]

theorem add : Statement (.add a b c) := by
  simp [Statement, Instr.addrClass, tagOf, Machine.branchCond]

theorem sub : Statement (.sub a b c) := by
  simp [Statement, Instr.addrClass, tagOf, Machine.branchCond]

theorem mul : Statement (.mul a b c) := by
  simp [Statement, Instr.addrClass, tagOf, Machine.branchCond]

theorem div : Statement (.div a b c) := by
  simp [Statement, Instr.addrClass, tagOf, Machine.branchCond]

theorem ld : Statement (.ld a b c) := by
  simp [Statement, Instr.addrClass, tagOf, Machine.branchCond]

theorem st : Statement (.st a b c) := by
  simp [Statement, Instr.addrClass, tagOf, Machine.branchCond]

theorem lda : Statement (.lda a b c) := by
  simp [Statement, Instr.addrClass, tagOf, Machine.branchCond]

theorem ldc : Statement (.ldc a b c) := by
  simp [Statement, Instr.addrClass, tagOf, Machine.branchCond]

theorem jlt : Statement (.jlt a b c) := by
  simp [Statement, Instr.addrClass, tagOf, Machine.branchCond]

theorem jle : Statement (.jle a b c) := by
  simp [Statement, Instr.addrClass, tagOf, Machine.branchCond]

theorem jgt : Statement (.jgt a b c) := by
  simp [Statement, Instr.addrClass, tagOf, Machine.branchCond]

theorem jge : Statement (.jge a b c) := by
  simp [Statement, Instr.addrClass, tagOf, Machine.branchCond]

theorem jeq : Statement (.jeq a b c) := by
  simp [Statement, Instr.addrClass, tagOf, Machine.branchCond]

theorem jne : Statement (.jne a b c) := by
  simp [Statement, Instr.addrClass, tagOf, Machine.branchCond]

end Instructions

end Sys2Proof.Laws.ClassOfTag
end

