-- ==== Sys2Proof/Laws/Step.lean ====
section
/-! SUPPORT. What `withFetchWord` promises: the next step fetches and runs the word. -/

namespace Sys2Proof.Machine

@[simp] theorem storeAtPc_pc (s : State) (w : InstrWord) : (storeAtPc s w).pc = s.pc := by
  unfold storeAtPc
  split <;> rfl

@[simp] theorem storeAtPc_runState (s : State) (w : InstrWord) :
    (storeAtPc s w).runState = s.runState := by
  unfold storeAtPc
  split <;> rfl

theorem storeAtPc_wordAtPc (s : State) (w : InstrWord) (h : Fetching s) :
    wordAtPc (storeAtPc s w) = w := by
  have hb : inBounds Config.imemSize s.pc = true := (inBounds_iff _ _).mpr h.2
  rw [wordAtPc, storeAtPc_pc]
  simp [storeAtPc, hb]

/-- From a Running state with the pc in range, the next step runs the instruction just stored. -/
theorem step_withFetchWord (s : State) (n w : Nat) (i : Instr) (h : Fetching s)
    (hd : decodeTableWord n w = some i) :
    step (s.withFetchWord n w) = exec i (s.withFetchWord n w) := by
  have hi : decode (wordOfNat w) = .ok i := by
    unfold decodeTableWord at hd
    split at hd
    · next j hj => cases hd; exact hj
    · cases hd
  refine step_of_decode _ i ?_ ?_
  · simpa [State.withFetchWord, Fetching] using h
  · rw [State.withFetchWord, storeAtPc_wordAtPc s _ h, hi]

end Sys2Proof.Machine
end

