-- ==== Sys2Proof/Tests/Slice0.lean ====
section
/-! SUPPORT. Tests on fixed values, taken from spec/95_test_vectors.md and the examples of the rules; and
for every statement with hypotheses a witness that meets them. -/

namespace Sys2Proof.Machine.Tests

open Sys2Proof

/-! ### Words written out from 30_encoding.md R93 and R96: op, a, b, c -/

theorem test_decode_halt : decode 0b00000_000_000_00000000000000000000000000000000#43 = .ok (.halt 0 0 0) := by rfl
theorem test_decode_inp : decode 0b00001_001_000_00000000000000000000000000000000#43 = .ok (.inp 1 0 0) := by rfl
theorem test_decode_out : decode 0b00010_010_000_00000000000000000000000000000000#43 = .ok (.out 2 0 0) := by rfl
theorem test_decode_add : decode 0b00011_010_000_00000000000000000000000000000001#43 = .ok (.add 2 0 1) := by rfl
theorem test_decode_sub : decode 0b00100_011_101_00000000000000000000000000000011#43 = .ok (.sub 3 5 3) := by rfl
theorem test_decode_mul : decode 0b00101_110_100_00000000000000000000000000000101#43 = .ok (.mul 6 4 5) := by rfl
theorem test_decode_div : decode 0b00110_001_000_00000000000000000000000000000000#43 = .ok (.div 1 0 0) := by rfl
theorem test_decode_ld : decode 0b00111_011_100_11111111111111111111111111111110#43 = .ok (.ld 3 4 (-2)) := by rfl
theorem test_decode_st : decode 0b01000_011_100_11111111111111111111111111111110#43 = .ok (.st 3 4 (-2)) := by rfl
theorem test_decode_lda : decode 0b01001_001_001_11111111111111111111111111111111#43 = .ok (.lda 1 1 (-1)) := by rfl
theorem test_decode_ldc : decode 0b01010_000_000_00000000000000000000000000000101#43 = .ok (.ldc 0 0 5) := by rfl
theorem test_decode_jlt : decode 0b01011_001_111_00000000000000000000000000000010#43 = .ok (.jlt 1 7 2) := by rfl
theorem test_decode_jle : decode 0b01100_001_111_00000000000000000000000000000010#43 = .ok (.jle 1 7 2) := by rfl
theorem test_decode_jgt : decode 0b01101_001_111_00000000000000000000000000000010#43 = .ok (.jgt 1 7 2) := by rfl
theorem test_decode_jge : decode 0b01110_111_011_00000000000000000000000000001011#43 = .ok (.jge 7 3 11) := by rfl
theorem test_decode_jeq : decode 0b01111_001_111_00000000000000000000000000000001#43 = .ok (.jeq 1 7 1) := by rfl
theorem test_decode_jne : decode 0b10000_001_111_11111111111111111111111111111101#43 = .ok (.jne 1 7 (-3)) := by rfl

/-- Tag 17 is the lowest unknown one (R106). -/
theorem test_decode_tag_17 : decode 0x44000000000#43 = .error (.unknownTag 17) := by rfl

/-- The table's row for JNE, with operand fields set. -/
theorem test_decodeTableWord : decodeTableWord 48 0x40FFFFFFFFD = some (.jne 1 7 (-3)) := by rfl

/-! ### Well-formed instructions (R109, 95_test_vectors.md part 4) -/

/-- Each opcode of the RR class with the third operand 8 or -1 is ill-formed; 7 is well-formed. -/
theorem test_wellFormed_rr :
    ([Instr.halt, .inp, .out, .add, .sub, .mul, .div].map fun mk =>
      ((mk 2 0 8).wellFormed, (mk 2 0 (-1)).wellFormed, (mk 7 7 7).wellFormed)) =
      List.replicate 7 (false, false, true) := by decide

/-- `LD 1 2 5000` and `JEQ 0 0 -7` are accepted. -/
theorem test_wellFormed_literals :
    (Instr.ld 1 2 5000).wellFormed = true ∧ (Instr.jeq 0 0 (-7)).wellFormed = true := by decide

/-! ### One step of each instruction (95_test_vectors.md part 2): the instruction stands at address 3 -/

/-- Registers given, the rest 0, the pc 3. -/
def at3 (l : List (Reg × Word)) : State := (l.foldl (fun s p => s.setReg p.1 p.2) State.reset).setPc 3

/-- What f sees of the next state of an instruction. -/
def after {α : Type} (i : Instr) (s : State) (f : State → α) : Option α :=
  match exec i s with
  | .next t => some (f t)
  | .fault _ => none
  | .refused _ => none

/-- -2147483648 -/
def MIN : Word := 0x80000000#32

/-- 2147483647 -/
def MAX : Word := 0x7FFFFFFF#32

theorem test_halt_keeps_pc : after (.halt 5 6 7) (at3 [(1, 6)])
    (fun t => (t.runState, t.reg 1, t.pc)) = some (.halted, 6, 3) := by decide

theorem test_in_takes_head : after (.inp 3 0 0) { at3 [] with input := [42, 7] }
    (fun t => (t.reg 3, t.input, t.pc)) = some (42, [7], 4) := by decide

theorem test_in_into_pc : after (.inp 7 0 0) { at3 [] with input := [9] }
    (fun t => (t.input, t.pc)) = some ([], 10) := by decide

theorem test_out_own_address : after (.out 7 0 0) (at3 [])
    (fun t => (t.output, t.pc)) = some ([3], 4) := by decide

theorem test_out_ill_formed_runs : after (.out 2 0 8) (at3 [(2, MIN)])
    (fun t => (t.output, t.pc)) = some ([MIN], 4) := by decide

theorem test_add_wraps : after (.add 2 0 1) (at3 [(0, MAX), (1, 1)])
    (fun t => (t.reg 2, t.pc)) = some (MIN, 4) := by decide

theorem test_add_into_pc : after (.add 7 0 1) (at3 [(0, 10), (1, 20)])
    (fun t => t.pc) = some 31 := by decide

theorem test_sub_order : after (.sub 2 1 0) (at3 [(0, 5), (1, 3)])
    (fun t => (t.reg 2, t.pc)) = some (-2, 4) := by decide

theorem test_sub_wraps : after (.sub 2 0 1) (at3 [(1, MIN)]) (fun t => t.reg 2) = some MIN := by decide

theorem test_mul_wraps : after (.mul 2 0 1) (at3 [(0, 46341), (1, 46341)])
    (fun t => (t.reg 2).toInt) = some (-2147479015) := by decide

theorem test_mul_same_register : after (.mul 3 3 3) (at3 [(3, -9)])
    (fun t => (t.reg 3, t.pc)) = some (81, 4) := by decide

theorem test_div_truncates : after (.div 2 0 1) (at3 [(0, -7), (1, 2)])
    (fun t => (t.reg 2, t.pc)) = some (-3, 4) := by decide

theorem test_div_by_zero : after (.div 2 0 1) (at3 [(0, 9), (2, 77)])
    (fun t => (t.runState, t.faultKind, t.reg 2, t.pc)) =
      some (.faulted, some .divideByZero, 77, 3) := by decide

theorem test_ld_cell : after (.ld 3 4 (-2)) { at3 [(4, 12)] with dmem := [(10, 99)] }
    (fun t => (t.reg 3, t.pc)) = some (99, 4) := by decide

theorem test_ld_out_of_bounds : after (.ld 3 4 0) (at3 [(4, 1024), (3, 55)])
    (fun t => (t.faultKind, t.reg 3, t.pc)) = some (some .dataMemoryFault, 55, 3) := by decide

theorem test_st_cell : after (.st 3 4 (-2)) (at3 [(3, -5), (4, 12)])
    (fun t => (t.dmem, t.pc)) = some ([(10, -5)], 4) := by decide

theorem test_st_out_of_bounds : after (.st 3 4 (-1)) (at3 [(3, 9)])
    (fun t => (t.faultKind, t.dmem, t.pc)) = some (some .dataMemoryFault, [], 3) := by decide

theorem test_lda_wraps : after (.lda 2 1 1) (at3 [(1, MAX)])
    (fun t => (t.reg 2, t.faultKind, t.pc)) = some (MIN, none, 4) := by decide

theorem test_lda_own_address : after (.lda 2 7 10) (at3 []) (fun t => (t.reg 2, t.pc)) = some (13, 4) := by decide

theorem test_ldc_ignores_second : after (.ldc 1 5 MIN) (at3 [(5, 9)])
    (fun t => (t.reg 1, t.reg 5, t.pc)) = some (MIN, 9, 4) := by decide

theorem test_ldc_into_pc_wraps : after (.ldc 7 0 MAX) (at3 []) (fun t => t.pc) = some MIN := by decide

/-- The table of 95_test_vectors.md 2.7: the pc after `Jxx 1 7 2` at address 4 (target 6) for the values
MIN, -1, 0, 1, MAX of x1. -/
def branchRow (mk : Reg → Reg → Word → Instr) : List (Option Word) :=
  [MIN, -1, 0, 1, MAX].map fun v => after (mk 1 7 2) ((at3 [(1, v)]).setPc 4) fun t => t.pc

theorem test_jlt_row : branchRow .jlt = [some 6, some 6, some 4, some 4, some 4] := by decide
theorem test_jle_row : branchRow .jle = [some 6, some 6, some 6, some 4, some 4] := by decide
theorem test_jgt_row : branchRow .jgt = [some 4, some 4, some 4, some 6, some 6] := by decide
theorem test_jge_row : branchRow .jge = [some 4, some 4, some 6, some 6, some 6] := by decide
theorem test_jeq_row : branchRow .jeq = [some 4, some 4, some 6, some 4, some 4] := by decide
theorem test_jne_row : branchRow .jne = [some 6, some 6, some 4, some 6, some 6] := by decide

theorem test_branch_faults_not_taken : after (.jne 1 7 (-5)) ((at3 []).setPc 4)
    (fun t => (t.faultKind, t.pc)) = some (some .instructionMemoryFault, 4) := by decide

theorem test_branch_target_wraps : after (.jeq 1 2 MIN) (at3 [(2, MIN)])
    (fun t => (t.faultKind, t.pc)) = some (none, 0) := by decide

/-! ### Fetch, dispatch, boot (95_test_vectors.md 2.8, part 4) -/

/-- A word at the pc 5. -/
def wordAt5 (w : InstrWord) : State := { State.reset.setPc 5 with imem := [(5, w)] }

theorem test_step_unknown_tag : step (wordAt5 0x44000000000#43) =
    .next ((wordAt5 0x44000000000#43).raise .noSuchInstruction) := by rfl

theorem test_step_refused : step (wordAt5 0x0D000000008#43) = .refused .operandNotRegister := by rfl

/-- The reset image halts at once (T1), and the row's word stored at the pc is what runs. -/
theorem test_step_reset : step State.reset = .next State.reset.halt := by rfl

theorem test_withFetchWord_runs : step (State.reset.withFetchWord 48 0x28000000005) =
    exec (.ldc 0 0 5) (State.reset.withFetchWord 48 0x28000000005) :=
  step_withFetchWord _ _ _ _ (by decide) rfl

theorem test_memory_canonical : Memory.write [(3, 7#32), (9, 1#32)] 3 0 = [(9, 1)] ∧
    Memory.write [(3, 7#32), (9, 1#32)] 5 2 = [(3, 7), (5, 2), (9, 1)] := by decide

theorem test_load_one_line : loadProgram "LDC 0 0 5 HALT 0 0 0" = .ok [.ldc 0 0 5, .halt 0 0 0] := by decide

theorem test_load_faults :
    ["halt 0 0 0", "LDC 8 0 1", "OUT 2 0 8", "LDC 0 0", "LDC 0 0 2147483648", "LDC 0 0 +5"].map loadProgram =
      [.error .unknownMnemonic, .error .operandNotRegister, .error .operandNotRegister,
       .error .truncatedRecord, .error .malformedInteger, .error .malformedInteger] := by decide

/-! ### Witnesses: for each statement with hypotheses, a state and operands that meet them all -/

/-- A Running state at address p whose cell there holds w. -/
def atWord (p : Word) (w : InstrWord) (l : List (Reg × Word)) : State :=
  { (at3 l).setPc p with imem := [(p.toNat, w)] }

theorem witness_EncodeOfDecode : decode 0x1DCFFFFFFFE#43 = .ok (.ld 3 4 (-2)) := by rfl

theorem witness_DecodeReadsTheFields : decode 0x40FFFFFFFFD#43 = .ok (.jne 1 7 (-3)) := by rfl

/-- The boundary tag on each side of the equivalence. -/
theorem witness_UndecodableWordsAreUnknownTags :
    17 ≤ (0x44000000000#43).toNat / 2 ^ 38 ∧ ¬ 17 ≤ (0x43FFFFFFFFF#43).toNat / 2 ^ 38 := by decide

/-- The ends of IntX. -/
theorem witness_ArithmeticWrapsSilently :
    (-2 ^ 31 ≤ MIN.toInt ∧ MIN.toInt ≤ 2 ^ 31 - 1) ∧ (-2 ^ 31 ≤ MAX.toInt ∧ MAX.toInt ≤ 2 ^ 31 - 1) ∧
    ∃ t, exec (.add 2 0 1) (at3 [(0, MAX), (1, 1)]) = .next t :=
  ⟨by decide, by decide, _, rfl⟩

/-- Operands next to the overflow pair. -/
theorem witness_DivisionTruncatesTowardZero :
    (BitVec.toInt (-1 : Word) ≠ 0 ∧ ¬ (MAX.toInt = -2 ^ 31 ∧ BitVec.toInt (-1 : Word) = -1)) ∧
    (BitVec.toInt (1 : Word) ≠ 0 ∧ ¬ (MIN.toInt = -2 ^ 31 ∧ BitVec.toInt (1 : Word) = -1)) ∧
    MAX.toInt ≠ -2 ^ 31 := by decide

theorem witness_DivisionOverflowWraps :
    BitVec.toInt (-1 : Word) ≠ 0 ∧ BitVec.toInt (1 : Word) = (((1 : Reg).val : Nat) : Int) ∧
    ((at3 [(0, MIN), (1, -1)]).reg 0).toInt = -2 ^ 31 ∧
    ((at3 [(0, MIN), (1, -1)]).reg 1).toInt = -1 := by decide

theorem witness_EffectiveAddressWraps :
    ((at3 [(0, MIN)]).reg 0).toInt = -2147483648 ∧ ((at3 [(0, MAX)]).reg 0).toInt = 2147483647 := by
  decide

/-- Addresses 0 and 1023 are in range, -1 and 1024 are not: for the two data primitives, the fetch, and
the addresses of LD and ST. -/
theorem witness_bounds :
    ([0, 1023].map fun a : Word => decide (0 ≤ a.toInt ∧ a.toInt < 1024)) = [true, true] ∧
    ([-1, 1024].map fun a : Word => decide (¬ (0 ≤ a.toInt ∧ a.toInt < 1024))) = [true, true] := by
  decide

theorem witness_StoreThenLoadReturnsTheValue : ∃ t,
    exec (.st 1 0 500) (at3 [(1, 77)]) = .next t ∧
    0 ≤ (effAddr (at3 [(1, 77)]) 0 500).toInt ∧ (effAddr (at3 [(1, 77)]) 0 500).toInt < 1024 ∧
    effAddr t 0 500 = effAddr (at3 [(1, 77)]) 0 500 ∧ t.dmem.read 500 = 77 :=
  ⟨_, rfl, by decide, by decide, by decide, by decide⟩

/-- Both clauses: a value waits, none waits. -/
theorem witness_InTakesOneInputValue :
    { at3 [] with input := [42, 7] }.input = (42 : Word) :: [7] ∧ (at3 []).input = [] := by decide

/-- Third operands 0 and 7 name registers 0 and 7; 8 and -1 name none. -/
theorem witness_AddSubMulWriteTheWrappedResult :
    BitVec.toInt (0 : Word) = (((0 : Reg).val : Nat) : Int) ∧
    BitVec.toInt (7 : Word) = (((7 : Reg).val : Nat) : Int) ∧
    ¬ (0 ≤ BitVec.toInt (8 : Word) ∧ BitVec.toInt (8 : Word) < 8) ∧
    ¬ (0 ≤ BitVec.toInt (-1 : Word) ∧ BitVec.toInt (-1 : Word) < 8) := by decide

/-- A divisor register that holds -1, and one that holds 0. -/
theorem witness_DivWritesTheQuotientOrFaults :
    BitVec.toInt (1 : Word) = (((1 : Reg).val : Nat) : Int) ∧
    ((at3 [(1, -1)]).reg 1).toInt ≠ 0 ∧ ((at3 []).reg 1).toInt = 0 := by decide

/-- LD and ST at the effective addresses 0, 1023, -1 and 1024. -/
theorem witness_LdLoadsTheCellOrFaults :
    ([0, 1023, -1, 1024].map fun c : Word => (effAddr (at3 []) 4 c).toInt) = [0, 1023, -1, 1024] := by
  decide

theorem witness_StStoresTheRegisterOrFaults :
    ([0, 1, -1023, -1024].map fun c : Word => (effAddr (at3 [(4, 1023)]) 4 c).toInt) =
      [1023, 1024, 0, -1] := by decide

/-- Targets 0, 1023 (in range), -1, 1024 (out), with a condition that holds and one that does not. -/
theorem witness_BranchesTestTargetThenCondition :
    ([0, 1023, -1, 1024].map fun c : Word => (effAddr (at3 []) 0 c).toInt) = [0, 1023, -1, 1024] ∧
    ((at3 [(1, -1)]).reg 1).toInt < 0 ∧ ¬ ((at3 []).reg 1).toInt < 0 := by decide

theorem witness_IllFormedThirdOperandIsRefused :
    ¬ (0 ≤ BitVec.toInt (8 : Word) ∧ BitVec.toInt (8 : Word) < 8) ∧
    ¬ (0 ≤ BitVec.toInt (-1 : Word) ∧ BitVec.toInt (-1 : Word) < 8) := by decide

/-- Register 6 as both sources and destination, holding 6 and holding 0. -/
theorem witness_SourcesAreReadBeforeTheDestinationIsWritten :
    (6 : Reg) ≠ Config.pcReg ∧ BitVec.toInt (6 : Word) = (((6 : Reg).val : Nat) : Int) ∧
    ((at3 [(6, 6)]).reg 6).toInt ≠ 0 ∧ ((at3 []).reg 6).toInt = 0 := by decide

theorem witness_StepRunsTheDecodedInstruction :
    Fetching (atWord 1023 0x28000000005#43 []) ∧
    decode (wordAtPc (atWord 1023 0x28000000005#43 [])) = .ok (.ldc 0 0 5) :=
  ⟨by decide, by rfl⟩

/-- The pc 1023 and 0 in range; 1024 and -1 out of range in a Running state. -/
theorem witness_FetchOutOfRangeFaults :
    (0 ≤ ((at3 []).setPc 1023).pc.toInt ∧ ((at3 []).setPc 1023).pc.toInt < 1024) ∧
    ((at3 []).setPc 1024).runState = .running ∧
    ¬ (0 ≤ ((at3 []).setPc 1024).pc.toInt ∧ ((at3 []).setPc 1024).pc.toInt < 1024) ∧
    ¬ (0 ≤ ((at3 []).setPc (-1)).pc.toInt ∧ ((at3 []).setPc (-1)).pc.toInt < 1024) := by decide

theorem witness_UnknownTagRaisesNoSuchInstruction :
    Fetching (atWord 5 0x44000000000#43 []) ∧
    17 ≤ (wordAtPc (atWord 5 0x44000000000#43 [])).toNat / 2 ^ 38 := by decide

theorem witness_NoStepInATerminalState :
    step State.reset = .next State.reset.halt ∧ State.reset.halt.runState ≠ .running :=
  ⟨rfl, by decide⟩

/-- A step that ends in Faulted; its latch was None. -/
theorem witness_FaultsArePrecise : ∃ t, step (atWord 3 0x18800000000#43 []) = .next t ∧
    t.runState = .faulted ∧ (atWord 3 0x18800000000#43 []).faultKind = none :=
  ⟨_, rfl, rfl, rfl⟩

/-- One step for each row of the fault table: fetch, branch target, data address, divisor, tag. -/
theorem witness_FaultTableIsComplete :
    (∃ t, step ((at3 []).setPc 1024) = .next t ∧ t.faultKind = some .instructionMemoryFault) ∧
    (∃ t, step (atWord 3 0x3C8FFFFFFFF#43 []) = .next t ∧
      t.faultKind = some .instructionMemoryFault) ∧
    (∃ t, step (atWord 3 0x20900000001#43 [(1, 1023)]) = .next t ∧
      t.faultKind = some .dataMemoryFault) ∧
    (∃ t, step (atWord 3 0x18800000000#43 []) = .next t ∧ t.faultKind = some .divideByZero) ∧
    (∃ t, step (atWord 3 0x44000000000#43 []) = .next t ∧ t.faultKind = some .noSuchInstruction) :=
  ⟨⟨_, rfl, rfl⟩, ⟨_, rfl, rfl⟩, ⟨_, rfl, rfl⟩, ⟨_, rfl, rfl⟩, ⟨_, rfl, rfl⟩⟩

theorem witness_RunStateTransitions : step State.reset = .next State.reset.halt := by rfl

/-- A step that writes a data cell, from a state that meets the invariant. -/
theorem witness_InvariantIsKept : Inv (atWord 3 0x20900000000#43 [(1, 1023)]) ∧
    ∃ t, step (atWord 3 0x20900000000#43 [(1, 1023)]) = .next t ∧ t.dmem = [(1023, 1023)] :=
  ⟨by decide, _, rfl, by decide⟩

theorem witness_InstructionStoreNeverChanges :
    (∃ t, exec (.st 1 1 0) (at3 [(1, 1023)]) = .next t) ∧
    ∃ t, runSteps 2 (atWord 3 0x28000000005#43 []) = .next t :=
  ⟨⟨_, rfl⟩, ⟨_, rfl⟩⟩

theorem witness_OnlyTheDestinationRegisterIsWritten : ∃ t,
    exec (.div 2 0 1) (at3 [(0, 9)]) = .next t ∧ (at3 [(0, 9)]).runState = .running ∧
    t.runState = .faulted :=
  ⟨_, rfl, by decide, by decide⟩

theorem witness_OnlyTheSourceRegistersAreRead :
    (5 : Reg) ≠ Config.pcReg ∧ ¬ readsReg (.add 2 0 1) 5 ∧ destOf (.add 2 0 1) ≠ some 5 := by
  refine ⟨by decide, ?_, by decide⟩
  rintro (h | h)
  · exact absurd h (by decide)
  · exact absurd h (by decide)

theorem witness_OnlyStWritesTheDataStore :
    (∀ a b c, Instr.ld 3 4 0 ≠ .st a b c) ∧ (∃ t, exec (.ld 3 4 0) (at3 []) = .next t) ∧
    ∃ t, exec (.st 3 4 0) (at3 []) = .next t :=
  ⟨fun _ _ _ => Instr.noConfusion, ⟨_, rfl⟩, ⟨_, rfl⟩⟩

theorem witness_StreamsBelongToInAndOut :
    (∃ t, exec (.inp 3 0 0) { at3 [] with input := [42, 7] } = .next t ∧ t.input ≠ [42, 7]) ∧
    (∃ t, exec (.out 2 0 0) (at3 [(2, 8)]) = .next t ∧ t.output ≠ (at3 [(2, 8)]).output) ∧
    ∀ a b c, Instr.out 2 0 0 ≠ .inp a b c :=
  ⟨⟨_, rfl, by decide⟩, ⟨_, rfl, by decide⟩, fun _ _ _ => Instr.noConfusion⟩

/-- A branch and a non-branch that leave the engine Running. -/
theorem witness_PcAdvancesByOpcodeClass : (at3 []).runState = .running ∧
    (∃ t, exec (.jeq 1 7 2) (at3 []) = .next t ∧ t.runState = .running ∧
      branchCond (.jeq 1 7 2) ≠ none) ∧
    ∃ t, exec (.out 2 0 0) (at3 []) = .next t ∧ t.runState = .running ∧
      branchCond (.out 2 0 0) = none ∧ destOf (.out 2 0 0) ≠ some Config.pcReg :=
  ⟨by decide, ⟨_, rfl, by decide, by decide⟩, ⟨_, rfl, by decide, by decide, by decide⟩⟩

theorem witness_BlockedInWaitsForInput : Fetching (atWord 2 0x05800000000#43 [(3, 5)]) ∧
    decode (wordAtPc (atWord 2 0x05800000000#43 [(3, 5)])) = .ok (.inp 3 0 0) ∧
    (atWord 2 0x05800000000#43 [(3, 5)]).input = [] :=
  ⟨by decide, by rfl, by decide⟩

/-- Program P6's branch: target 2 in range, x1 = 1 is not 0. -/
theorem witness_NotTakenBranchRepeatsForever : Fetching (atWord 1 0x3CF00000001#43 [(1, 1)]) ∧
    decode (wordAtPc (atWord 1 0x3CF00000001#43 [(1, 1)])) = .ok (.jeq 1 7 1) ∧
    branchCond (.jeq 1 7 1) = some .eq ∧
    0 ≤ (addrOf (.jeq 1 7 1) (atWord 1 0x3CF00000001#43 [(1, 1)])).toInt ∧
    (addrOf (.jeq 1 7 1) (atWord 1 0x3CF00000001#43 [(1, 1)])).toInt < 1024 ∧
    Cond.holds .eq ((atWord 1 0x3CF00000001#43 [(1, 1)]).reg 1) = false :=
  ⟨by decide, by rfl, by decide, by decide, by decide, by decide⟩

/-- An ill-formed ADD at the pc; and the reset image, which is well-formed. -/
theorem witness_WellFormedImagesAreNeverRefused :
    (Fetching (atWord 5 0x0D000000008#43 []) ∧
      ¬ (0 ≤ BitVec.toInt (8 : Word) ∧ BitVec.toInt (8 : Word) < 8) ∧
      decode (wordAtPc (atWord 5 0x0D000000008#43 [])) = .ok (.add 2 0 8)) ∧
    WellFormedImage State.reset ∧ State.reset.faultKind ≠ some .noSuchInstruction ∧
    ∃ t, step State.reset = .next t :=
  ⟨⟨by decide, by decide, by rfl⟩,
    fun k _ => (congrArg cellWellFormed (rfl : State.reset.imem.read k = 0#43)).trans
      (by decide : cellWellFormed 0#43 = true),
    by decide, _, rfl⟩

/-- Input waits; the fetched word is no IN; a terminal state, and a pc out of range, each with an IN in
cell 0 and no input. -/
theorem witness_InputArrivalMattersOnlyToABlockedIn :
    { at3 [] with input := [42] }.input ≠ [] ∧
    (∀ a b c, decode (wordAtPc State.reset) ≠ .ok (.inp a b c)) ∧
    ¬ Fetching (atWord 0 0x04000000000#43 []).halt ∧
    ¬ Fetching { atWord (-1) 0 [] with imem := [(0, 0x04000000000)] } := by
  refine ⟨by decide, fun a b c h => ?_, by decide, by decide⟩
  have h' : decode (wordAtPc State.reset) = .ok (.halt 0 0 0) := by rfl
  rw [h'] at h
  cases h

theorem witness_RunningOffTheEndFaults : Fetching (atWord 1023 0x28000000001#43 []) ∧
    (atWord 1023 0x28000000001#43 []).pc.toInt = 1023 ∧
    decode (wordAtPc (atWord 1023 0x28000000001#43 [])) = .ok (.ldc 0 0 1) ∧
    branchCond (.ldc 0 0 1) = none ∧ destOf (.ldc 0 0 1) ≠ some Config.pcReg ∧
    ∃ t, step (atWord 1023 0x28000000001#43 []) = .next t ∧ t.runState = .running ∧
      t ≠ atWord 1023 0x28000000001#43 [] :=
  ⟨by decide, by decide, by rfl, by decide, by decide, _, rfl, by decide, by decide⟩

theorem witness_LoadPortWritesOneCell : Inv State.reset := by decide

/-- A name that is no mnemonic, longer than a mnemonic it begins with (R120), before three integers. -/
theorem witness_MnemonicsAreTheSeventeenNames :
    mnemonicLookup "LDAX".toList = none ∧ intToken ['0'] ≠ none := by decide

/-- The ends of IntX and just past them, zero with a sign and with leading zeros, and four tokens that
are no integers. -/
theorem witness_IntegerTokensAreSignedDecimals :
    (["-2147483648", "2147483647", "-0", "007"].map fun t => intToken t.toList) =
      [some (-2147483648), some 2147483647, some 0, some 7] ∧
    ∀ t ∈ ["-2147483649", "2147483648", "", "-", "+5", "5-"], intToken t.toList = none := by decide

/-- Two records over three lines and one record, and a text that is cut short. -/
theorem witness_LoaderReadsTheTextAsRecords :
    tokens "IN 3\n0 0\tOUT 3 0\n 0 " =
      ["IN".toList, ['3'], ['0'], ['0'], "OUT".toList, ['3'], ['0'], ['0']] ∧
    loadProgram "IN 3\n0 0\tOUT 3 0\n 0 " = .ok [.inp 3 0 0, .out 3 0 0] ∧
    loadProgram "IN 3 0 0 OUT" = .error .truncatedRecord := by decide

/-- A record that is accepted, with the register indices at their upper bound. -/
theorem witness_LoaderAcceptsExactlyTheCheckedRecords :
    assembleRecord "ADD".toList "7".toList "7".toList "7".toList = .ok (.add 7 7 7) := by decide

theorem witness_BootPlacesRecordsInOrder :
    ∃ s, boot "LDC 0 0 5 HALT 0 0 0" [42] = .ok s ∧ s.imem = [(0, 0x28000000005)] :=
  ⟨_, rfl, by decide⟩

theorem witness_LoaderImagesAreWellFormed : ∃ s, boot "ADD 2 0 1" [] = .ok s := ⟨_, rfl⟩

theorem witness_LoadedProgramsNeverRefuse :
    ∃ s, boot "LDC 0 0 0 DIV 1 0 0" [] = .ok s ∧ ∃ t, runSteps 2 s = .next t ∧
      t.faultKind = some .divideByZero :=
  ⟨_, rfl, _, rfl, by decide⟩

end Sys2Proof.Machine.Tests
end

section
/-! PROOFS. The state (10_state.md): what an instruction and a step do to the run state (R35) and to the
two streams (R45). -/

namespace Sys2Proof.Machine

/-! ### The run state -/

theorem isHalt_iff (i : Instr) : isHalt i = true ↔ ∃ a b c, i = .halt a b c := by
  cases i <;> simp [isHalt]

theorem raised_raise (s : State) (f : FaultKind) : Raised s (s.raise f) f :=
  ⟨rfl, rfl, fun _ => rfl, fun _ _ => rfl, fun _ => rfl, rfl, rfl⟩

/-- What an instruction does to run state and latch: HALT halts, a fault is raised, or both are kept. -/
theorem ExecEffect.status_cases {i : Instr} {s t : State} (h : ExecEffect i s t) :
    (isHalt i = true ∧ t = s.halt) ∨ (∃ f, t = s.raise f) ∨ StatusKept s t := by
  cases h with
  | halted h => exact .inl ⟨h, rfl⟩
  | raisedTarget | raisedData | raisedDivide => exact .inr (.inl ⟨_, rfl⟩)
  | unchanged | wrote | took | put | stored | jumped => exact .inr (.inr ⟨rfl, rfl⟩)

/-- An instruction that a Running state fetches is the one in the cell that the pc names. -/
theorem fetching_of_fetchInstr {s : State} {i : Instr} (hr : s.runState = .running)
    (h : fetchInstr s = .ok i) : Fetching s ∧ decode (wordAtPc s) = .ok i := by
  rcases fetchInstr_cases s with ⟨_, hf⟩ | ⟨_, _, hf⟩ | ⟨j, hb, hd, hf⟩ <;> rw [hf] at h <;> cases h
  exact ⟨⟨hr, (inBounds_iff _ _).mp hb⟩, hd⟩

/-- The inversion of a step: only a Running state steps, and it raises the fault of its fetch or runs
the instruction that the pc names. -/
theorem step_effect {s t : State} (h : step s = .next t) :
    s.runState = .running ∧ ((∃ f, t = s.raise f) ∨
      ∃ i, Fetching s ∧ decode (wordAtPc s) = .ok i ∧ ExecEffect i s t) := by
  rcases step_cases s with ⟨_, hs⟩ | ⟨_, hs⟩ | ⟨hr, f, _, hs⟩ | ⟨hr, i, hf, hs⟩ <;> rw [hs] at h
  · cases h
  · cases h
  · cases h
    exact ⟨hr, .inl ⟨f, rfl⟩⟩
  · obtain ⟨hfetch, hd⟩ := fetching_of_fetchInstr hr hf
    exact ⟨hr, .inr ⟨i, hfetch, hd, exec_effect i s t h⟩⟩

/-- The three ends of a step that answers a next state: a fetched HALT halts, a fault is raised, or the
engine stays Running. -/
theorem step_status_cases {s t : State} (h : step s = .next t) :
    (Fetching s ∧ (∃ a b c, decode (wordAtPc s) = .ok (.halt a b c)) ∧ t = s.halt) ∨
      (∃ f, t = s.raise f) ∨ t.runState = .running := by
  obtain ⟨hr, hraise | ⟨i, hfetch, hd, he⟩⟩ := step_effect h
  · exact .inr (.inl hraise)
  · rcases he.status_cases with ⟨hi, ht⟩ | hraise | ⟨hkept, _⟩
    · obtain ⟨a, b, c, rfl⟩ := (isHalt_iff i).mp hi
      exact .inl ⟨hfetch, ⟨a, b, c, hd⟩, ht⟩
    · exact .inr (.inl hraise)
    · exact .inr (.inr (hkept.trans hr))

/-- Settles O36, from the three ends of a step. -/
theorem runStateTransitions : Obligations.RunStateTransitions := by
  intro s t h
  refine ⟨(step_effect h).1, ⟨fun hh => ?_, ?_⟩, fun hh => ?_, fun ⟨_, hraised⟩ => hraised.1⟩
  · rcases step_status_cases h with ⟨hfetch, hd, _⟩ | ⟨f, rfl⟩ | hrun
    · exact ⟨hfetch, hd⟩
    · cases hh
    · rw [hrun] at hh; cases hh
  · rintro ⟨hfetch, a, b, c, hd⟩
    rw [step_of_decode s _ hfetch hd, exec_halt] at h
    cases h
    rfl
  · rcases step_status_cases h with ⟨_, _, rfl⟩ | ⟨f, rfl⟩ | hrun
    · cases hh
    · exact ⟨f, raised_raise s f⟩
    · rw [hrun] at hh; cases hh

/-! ### The streams -/

theorem ExecEffect.input_cases {i : Instr} {s t : State} (h : ExecEffect i s t) :
    t.input = s.input ∨ ∃ a b c v, i = .inp a b c ∧ s.input = v :: t.input := by
  cases h with
  | took a b c v rest h hin => exact .inr ⟨a, b, c, v, h, hin⟩
  | halted | raisedTarget | raisedData | raisedDivide | unchanged | wrote | put | stored | jumped =>
    exact .inl rfl

theorem ExecEffect.output_cases {i : Instr} {s t : State} (h : ExecEffect i s t) :
    t.output = s.output ∨ ∃ a b c, i = .out a b c ∧ t.output = s.output ++ [s.reg a] := by
  cases h with
  | put a b c h => exact .inr ⟨a, b, c, h, rfl⟩
  | halted | raisedTarget | raisedData | raisedDivide | unchanged | wrote | took | stored | jumped =>
    exact .inl rfl

/-- s with the input stream l in place of its own. -/
def State.withInput (s : State) (l : List Word) : State := { s with input := l }

section WithInput

variable (s : State) (l : List Word)

/-! Reading a register does not see the input; writing the pc and raising a fault commute with its
replacement. -/

@[simp] theorem State.reg_withInput (r : Reg) : (s.withInput l).reg r = s.reg r := rfl

@[simp] theorem effAddr_withInput (b : Reg) (c : Word) :
    effAddr (s.withInput l) b c = effAddr s b c := rfl

@[simp] theorem mapNext_next (f : State → State) : mapNext f (.next s) = .next (f s) := rfl

@[simp] theorem mapNext_refused (f : State → State) (r : Refusal) :
    mapNext f (.refused r) = .refused r := rfl

theorem State.setPc_withInput (v : Word) : (s.withInput l).setPc v = (s.setPc v).withInput l := rfl

theorem State.raise_withInput (f : FaultKind) :
    (s.withInput l).raise f = (s.raise f).withInput l := rfl

theorem withSources_withInput (b : Reg) (c : Word) {k k' : Word → Word → Result}
    (h : ∀ m n, k' m n = mapNext (·.withInput l) (k m n)) :
    withSources (s.withInput l) b c k' = mapNext (·.withInput l) (withSources s b c k) := by
  rcases withSources_cases s b c k with ⟨hc, hs⟩ | ⟨r, hc, hs⟩ <;> rw [hs]
  · rw [withSources_refused _ b c k' hc, mapNext_refused]
  · rw [withSources_of_reg _ b r c k' hc, h, State.reg_withInput, State.reg_withInput]

theorem branchOn_withInput (k : Cond) (a b : Reg) (c : Word) :
    branchOn k a b c (s.withInput l) = mapNext (·.withInput l) (branchOn k a b c s) := by
  rcases branchOn_cases k a b c s with ⟨hb, hs⟩ | ⟨hb, hk, hs⟩ | ⟨hb, hk, hs⟩ <;> rw [hs]
  · simp [branchOn, faultWith, hb, State.raise_withInput]
  · simp [branchOn, hb, hk, State.setPc_withInput]
  · simp [branchOn, hb, hk]

/-- An instruction other than IN does with another input what it does with this one. -/
theorem exec_withInput (i : Instr) (hi : ∀ a b c, i ≠ .inp a b c) :
    exec i (s.withInput l) = mapNext (·.withInput l) (exec i s) := by
  cases i with
  | halt | out | lda | ldc => rfl
  | inp a b c => exact absurd rfl (hi a b c)
  | add a b c =>
    rw [exec_add, exec_add]
    exact withSources_withInput s l b c fun _ _ => rfl
  | sub a b c =>
    rw [exec_sub, exec_sub]
    exact withSources_withInput s l b c fun _ _ => rfl
  | mul a b c =>
    rw [exec_mul, exec_mul]
    exact withSources_withInput s l b c fun _ _ => rfl
  | div a b c =>
    rw [exec_div, exec_div]
    refine withSources_withInput s l b c fun n d => ?_
    split <;> rfl
  | ld a b c =>
    cases hb : inBounds Config.dmemSize (effAddr s b c) with
    | false =>
      rw [exec_ld_of_not_inBounds a b c s hb]
      exact exec_ld_of_not_inBounds a b c (s.withInput l) hb
    | true =>
      rw [exec_ld_of_inBounds a b c s hb]
      exact exec_ld_of_inBounds a b c (s.withInput l) hb
  | st a b c =>
    cases hb : inBounds Config.dmemSize (effAddr s b c) with
    | false =>
      rw [exec_st_of_not_inBounds a b c s hb]
      exact exec_st_of_not_inBounds a b c (s.withInput l) hb
    | true =>
      rw [exec_st_of_inBounds a b c s hb]
      exact exec_st_of_inBounds a b c (s.withInput l) hb
  | jlt | jle | jgt | jge | jeq | jne => exact branchOn_withInput s l _ _ _ _

end WithInput

/-- Settles O44: the stream clauses from the effects of an instruction, the independence of the input
from `exec_withInput`. -/
theorem streamsBelongToInAndOut : Obligations.StreamsBelongToInAndOut :=
  ⟨fun i s t h hne => (exec_effect i s t h).input_cases.resolve_left hne,
    fun i s t h hne => (exec_effect i s t h).output_cases.resolve_left hne,
    fun i s l hi => exec_withInput s l i hi⟩

end Sys2Proof.Machine
end

section
/-! PROOFS. The stores (20_memory.md): the access primitives (R64 to R66), and no instruction and no run
changes the instruction store (R75). -/

namespace Sys2Proof.Machine

/-! ### The access primitives -/

theorem inBounds_eq_false_iff (size : Nat) (addr : Word) :
    inBounds size addr = false ↔ ¬ (0 ≤ addr.toInt ∧ addr.toInt < size) := by
  rw [← inBounds_iff, Bool.not_eq_true]

theorem fetchWord_of_inBounds (s : State) {addr : Word}
    (h : inBounds Config.imemSize addr = true) :
    fetchWord s addr = .ok (s.imem.read (cellIndex addr)) :=
  ((fetchWord_cases s addr).resolve_right (by simp [h])).2

theorem fetchWord_of_not_inBounds (s : State) {addr : Word}
    (h : inBounds Config.imemSize addr = false) :
    fetchWord s addr = .error .instructionMemoryFault :=
  ((fetchWord_cases s addr).resolve_left (by simp [h])).2

theorem memRead_of_inBounds (s : State) {addr : Word}
    (h : inBounds Config.dmemSize addr = true) :
    memRead s addr = .ok (s.dmem.read (cellIndex addr)) :=
  ((memRead_cases s addr).resolve_right (by simp [h])).2

theorem memRead_of_not_inBounds (s : State) {addr : Word}
    (h : inBounds Config.dmemSize addr = false) :
    memRead s addr = .error .dataMemoryFault :=
  ((memRead_cases s addr).resolve_left (by simp [h])).2

theorem memWrite_of_inBounds (s : State) {addr : Word} (v : Word)
    (h : inBounds Config.dmemSize addr = true) :
    memWrite s addr v = .ok { s with dmem := s.dmem.write (cellIndex addr) v } :=
  ((memWrite_cases s addr v).resolve_right (by simp [h])).2

theorem memWrite_of_not_inBounds (s : State) {addr : Word} (v : Word)
    (h : inBounds Config.dmemSize addr = false) :
    memWrite s addr v = .error .dataMemoryFault :=
  ((memWrite_cases s addr v).resolve_left (by simp [h])).2

/-- Settles O13: the two answers of a data read, each on its side of R63's test. -/
theorem dataReadIsBounded : Obligations.DataReadIsBounded := fun s _ =>
  ⟨fun h => memRead_of_inBounds s ((inBounds_iff _ _).mpr h),
    fun h => memRead_of_not_inBounds s ((inBounds_eq_false_iff _ _).mpr h)⟩

/-- Settles O15: the two answers of an instruction read, each on its side of R63's test. -/
theorem instructionReadIsBounded : Obligations.InstructionReadIsBounded := fun s _ =>
  ⟨fun h => fetchWord_of_inBounds s ((inBounds_iff _ _).mpr h),
    fun h => fetchWord_of_not_inBounds s ((inBounds_eq_false_iff _ _).mpr h)⟩

/-- Writing cell k of a data store leaves every other cell as it was. -/
theorem cellsKept_write (s : State) (k : Nat) (v : Word) :
    CellsKept s { s with dmem := s.dmem.write k v } (fun j => j = k) :=
  fun j hj => Memory.read_write_of_ne s.dmem k j v hj

/-- Settles O14: in range the answered state differs in the written store alone, where read after write
speaks for each cell. -/
theorem dataWriteChangesOneCell : Obligations.DataWriteChangesOneCell := by
  refine fun s addr v => ⟨fun h => ?_, fun h => ?_⟩
  · have hw := memWrite_of_inBounds s v ((inBounds_iff Config.dmemSize addr).mpr h)
    exact ⟨_, hw, Memory.read_write_same s.dmem _ v, cellsKept_write s _ v, fun _ => rfl,
      fun _ => rfl, ⟨rfl, rfl⟩, ⟨rfl, rfl⟩⟩
  · exact memWrite_of_not_inBounds s v ((inBounds_eq_false_iff _ _).mpr h)

/-! ### The instruction store -/

/-- No effect of an instruction is on the instruction store. -/
theorem ExecEffect.imem_eq {i : Instr} {s t : State} (h : ExecEffect i s t) : t.imem = s.imem := by
  cases h with
  | halted => exact s.halt_imem
  | raisedTarget | raisedData | raisedDivide => exact s.raise_imem _
  | unchanged => rfl
  | wrote a v => rw [State.advance_imem, State.setReg_imem]
  | took | stored => exact State.advance_imem _
  | put => rw [State.advance_imem, putOutput_imem]
  | jumped => exact s.setPc_imem _

theorem step_imem_eq {s t : State} (h : step s = .next t) : t.imem = s.imem := by
  obtain ⟨_, ⟨f, rfl⟩ | ⟨i, _, _, he⟩⟩ := step_effect h
  · exact s.raise_imem f
  · exact he.imem_eq

/-- What every step keeps, every run keeps. -/
theorem runSteps_keeps {P : State → Prop} (hstep : ∀ s t, P s → step s = .next t → P t) (n : Nat)
    {s t : State} (hs : P s) (h : runSteps n s = .next t) : P t := by
  induction n generalizing s with
  | zero => cases h; exact hs
  | succ n ih =>
    cases hu : step s with
    | next u =>
      rw [runSteps_succ_of_next n s u hu] at h
      exact ih (hstep s u hs hu) h
    | fault f => rw [runSteps_succ_of_fault n s f hu] at h; cases h
    | refused r => rw [runSteps_succ_of_refused n s r hu] at h; cases h

/-- Settles O40: no effect of an instruction is on the instruction store, and a run keeps what its steps
keep. -/
theorem instructionStoreNeverChanges : Obligations.InstructionStoreNeverChanges :=
  ⟨fun i s t h => (exec_effect i s t h).imem_eq,
    fun n s _ h => runSteps_keeps (P := fun u => u.imem = s.imem)
      (fun _ _ hu hstep => (step_imem_eq hstep).trans hu) n rfl h⟩

end Sys2Proof.Machine
end

section
/-! PROOFS. The encoding (30_encoding.md): the four fields of a word (R94), the word of a tuple (R121),
unknown tags (R106), and the loader's mnemonics (R114) and integer tokens (R115). -/

namespace Sys2Proof.Machine

/-! ### Tags and fields -/

theorem tagOf_le (i : Instr) : tagOf i ≤ 16 := by
  cases i <;> simp [tagOf]

/-! Each field of a word by arithmetic on the word (R94). -/

section Fields

variable (w : InstrWord)

theorem toNat_opField : (opField w).toNat = w.toNat / 2 ^ 38 := by
  rw [opField, BitVec.extractLsb'_toNat, Nat.shiftRight_eq_div_pow]
  have hw := w.isLt
  omega

theorem val_aField : (aField w).val = w.toNat / 2 ^ 35 % 8 := by
  simp [aField, Nat.shiftRight_eq_div_pow]

theorem val_bField : (bField w).val = w.toNat / 2 ^ 32 % 8 := by
  simp [bField, Nat.shiftRight_eq_div_pow]

theorem toInt_cField : (cField w).toInt = (w.toNat : Int).bmod (2 ^ 32) := by
  rw [BitVec.toInt_eq_toNat_bmod, cField, BitVec.extractLsb'_toNat, Nat.shiftRight_zero,
    Int.natCast_mod]
  exact Int.emod_bmod _ _

end Fields

/-! ### The encoder -/

/-- The four fields do not overlap and fill no more than 43 bits: nothing of the sum is lost. -/
theorem toNat_encodeTuple {op : Nat} (h : op < 32) (a b : Reg) (c : Word) :
    (encodeTuple op a b c).toNat = op * 2 ^ 38 + a.val * 2 ^ 35 + b.val * 2 ^ 32 + c.toNat := by
  have ha := a.isLt
  have hb := b.isLt
  have hc := c.isLt
  rw [encodeTuple, BitVec.toNat_ofNat]
  omega

/-- The third operand modulo 2^32 is its bits, read as a natural number. -/
theorem toNat_toInt_emod (c : Word) : (c.toInt % 2 ^ 32).toNat = c.toNat :=
  calc
    (c.toInt % 2 ^ 32).toNat = (wrap c.toInt).toNat := (BitVec.toNat_ofInt c.toInt).symm
    _ = c.toNat := by rw [wrap_toInt]

theorem toNat_encode (i : Instr) : (encode i).toNat =
    tagOf i * 2 ^ 38 + i.operands.1.val * 2 ^ 35 + i.operands.2.1.val * 2 ^ 32 +
      (i.operands.2.2.toInt % 2 ^ 32).toNat := by
  have ht := tagOf_le i
  rw [encode, toNat_encodeTuple (by omega), toNat_toInt_emod]

/-- The tag stands above the operands in the word of an instruction. -/
theorem toNat_encode_div (i : Instr) : (encode i).toNat / 2 ^ 38 = tagOf i := by
  have ha := i.operands.1.isLt
  have hb := i.operands.2.1.isLt
  have hc := i.operands.2.2.isLt
  rw [toNat_encode, toNat_toInt_emod]
  omega

/-- Settles O3: the formula is `toNat_encode`; the rule's five examples are closed words. -/
theorem encodeFollowsTheFormula : Obligations.EncodeFollowsTheFormula :=
  ⟨toNat_encode, rfl, rfl, rfl, rfl, rfl⟩

/-! ### The decoder -/

/-- Each known tag builds its own opcode's instruction, on the operands given. -/
theorem tagOf_operands_of_instrOfTag {tag : BitVec 5} {a b : Reg} {c : Word} {i : Instr}
    (h : instrOfTag tag a b c = .ok i) : tagOf i = tag.toNat ∧ i.operands = (a, b, c) := by
  unfold instrOfTag at h
  split at h <;> cases h <;> exact ⟨Eq.symm ‹_›, rfl⟩

theorem tagOf_operands_of_decode {w : InstrWord} {i : Instr} (h : decode w = .ok i) :
    tagOf i = (opField w).toNat ∧ i.operands = (aField w, bField w, cField w) :=
  tagOf_operands_of_instrOfTag h

/-- Settles O4: the fields by arithmetic, and the decoder's use of them. -/
theorem decodeReadsTheFields : Obligations.DecodeReadsTheFields :=
  ⟨fun w => ⟨toNat_opField w, val_aField w, val_bField w, toInt_cField w⟩,
    fun _ _ h => tagOf_operands_of_decode h⟩

/-- A word that decodes has a tag of 16 or less. -/
theorem tag_le_of_decode {w : InstrWord} {i : Instr} (h : decode w = .ok i) :
    w.toNat / 2 ^ 38 ≤ 16 := by
  rw [← toNat_opField, ← (tagOf_operands_of_decode h).1]
  exact tagOf_le i

/-- A Fetching state whose word is no instruction fails in dispatch. -/
theorem fetchInstr_of_undecodable {s : State} (h : Fetching s)
    (hd : ∀ i, decode (wordAtPc s) ≠ .ok i) : fetchInstr s = .error .noSuchInstruction := by
  rcases fetchInstr_cases s with ⟨hb, _⟩ | ⟨_, _, hf⟩ | ⟨i, _, hi, _⟩
  · exact absurd h.2 ((inBounds_eq_false_iff _ _).mp hb)
  · exact hf
  · exact absurd hi (hd i)

/-- A Running state whose fetch or dispatch fails raises that fault. -/
theorem step_of_fetchInstr_error {s : State} {f : FaultKind} (hr : s.runState = .running)
    (h : fetchInstr s = .error f) : step s = .next (s.raise f) := by
  simp [step, hr, h, faultWith]

/-- Settles O31: no instruction has such a tag, so the word is none, and its dispatch fails. -/
theorem unknownTagRaisesNoSuchInstruction : Obligations.UnknownTagRaisesNoSuchInstruction := by
  refine ⟨fun s hs htag => ?_, fun i => toNat_encode_div i ▸ tagOf_le i⟩
  have hd : ∀ i, decode (wordAtPc s) ≠ .ok i := fun _ hi =>
    absurd htag (Nat.not_le_of_lt (Nat.lt_succ_of_le (tag_le_of_decode hi)))
  exact ⟨_, step_of_fetchInstr_error hs.1 (fetchInstr_of_undecodable hs hd), raised_raise s _⟩

/-! ### Mnemonics -/

/-- No two rows of the table have the same name. -/
theorem nodup_mnemonicTable_names : (mnemonicTable.map Prod.fst).Nodup := by decide

/-- The lookup finds exactly the rows of the table, because no name stands there twice. -/
theorem mnemonicLookup_eq_some_iff (name : List Char) (mk : Reg → Reg → Word → Instr) :
    mnemonicLookup name = some mk ↔ ∃ n : String, n.toList = name ∧ (n, mk) ∈ mnemonicTable := by
  refine ⟨mem_mnemonicTable_of_lookup name mk, ?_⟩
  rintro ⟨n, rfl, hrow⟩
  cases hl : mnemonicLookup n.toList with
  | none =>
    rw [mnemonicLookup, Option.map_eq_none_iff, List.find?_eq_none] at hl
    exact absurd (beq_self_eq_true n.toList) (hl _ hrow)
  | some mk' =>
    obtain ⟨n', hn, hrow'⟩ := mem_mnemonicTable_of_lookup _ _ hl
    have hrows : (n', mk') = (n, mk) :=
      List.inj_on_of_nodup_map nodup_mnemonicTable_names hrow' hrow (String.toList_injective hn)
    cases hrows
    rfl

/-- A record with an unknown mnemonic is refused for it, whatever its operands. -/
theorem assembleRecord_of_unknown {name : List Char} (h : mnemonicLookup name = none)
    (ta tb tc : List Char) : assembleRecord name ta tb tc = .error .unknownMnemonic := by
  simp [assembleRecord, h]

/-- Settles O57: the mnemonics are the rows of the table, read off one by one. -/
theorem mnemonicsAreTheSeventeenNames : Obligations.MnemonicsAreTheSeventeenNames := by
  refine ⟨fun name mk => ?_, fun name ta tb tc h => ?_, by decide⟩
  · rw [mnemonicLookup_eq_some_iff]
    simp only [mnemonicTable, List.mem_cons, List.not_mem_nil, or_false, Prod.mk.injEq, and_or_left,
      exists_or, and_left_comm, exists_eq_left, eq_comm (b := name)]
  · have hunknown := assembleRecord_of_unknown h ta tb tc
    exact ⟨⟨_, hunknown⟩, fun _ _ _ => hunknown⟩

/-! ### Integer tokens -/

theorem digitsFrom_zero_eq_some_iff (ds : List Char) (n : Nat) :
    digitsFrom 0 ds = some n ↔
      (∀ ch ∈ ds, 48 ≤ ch.toNat ∧ ch.toNat ≤ 57) ∧ (n : Int) = decimalValue ds := by
  rw [digitsFrom_eq_some_iff, decimalValue, Nat.cast_inj, zero_mul, zero_add]

/-- Digits read under a sign f: one or more decimal digits, with f of their value. -/
theorem map_digitsFrom_eq_some_iff {ds : List Char} (hne : ds ≠ []) (f : Int → Int) (v : Int) :
    ((digitsFrom 0 ds).map fun n : Nat => f n) = some v ↔
      DecimalDigits ds ∧ v = f (decimalValue ds) := by
  rw [Option.map_eq_some_iff]
  constructor
  · rintro ⟨n, hn, rfl⟩
    obtain ⟨hdigits, hval⟩ := (digitsFrom_zero_eq_some_iff ds n).mp hn
    exact ⟨⟨hne, hdigits⟩, congrArg f hval⟩
  · rintro ⟨⟨_, hdigits⟩, rfl⟩
    exact ⟨_, (digitsFrom_zero_eq_some_iff ds _).mpr ⟨hdigits, rfl⟩, rfl⟩

theorem not_decimalDigits_nil : ¬ DecimalDigits [] := fun h => h.1 rfl

/-- A minus is no digit, so no token is read in both ways. -/
theorem not_decimalDigits_minus (ds : List Char) : ¬ DecimalDigits ('-' :: ds) := fun h =>
  absurd (h.2 '-' List.mem_cons_self).1 (by decide)

/-- A signed decimal is one or more digits, or those after a minus. -/
theorem signedDecimal_eq_some_iff (tok : List Char) (v : Int) :
    signedDecimal tok = some v ↔ ∃ ds, DecimalDigits ds ∧
      ((tok = ds ∧ v = decimalValue ds) ∨ (tok = '-' :: ds ∧ v = -decimalValue ds)) := by
  simp only [and_or_left, exists_or, and_left_comm (a := DecimalDigits _), exists_eq_left']
  unfold signedDecimal
  split
  · simp [not_decimalDigits_nil]
  · simp [not_decimalDigits_nil, not_decimalDigits_minus]
  · next ds hne =>
    rw [map_digitsFrom_eq_some_iff hne fun n => -n]
    simp [not_decimalDigits_minus]
  · next hnil _ hminus =>
    rw [map_digitsFrom_eq_some_iff hnil fun n => n]
    have hno (ds : List Char) : ¬ tok = '-' :: ds := hminus ds
    simp [hno]

/-- The three integers of an accepted record are integer tokens. -/
theorem intToken_ne_none_of_assembleRecord {name ta tb tc : List Char} {i : Instr}
    (h : assembleRecord name ta tb tc = .ok i) :
    intToken ta ≠ none ∧ intToken tb ≠ none ∧ intToken tc ≠ none := by
  unfold assembleRecord at h
  split at h
  · cases h
  · split at h
    · next ha hb hc => simp [ha, hb, hc]
    · cases h

/-- Settles O58: an integer token is a signed decimal in IntX; a record without three of them is not
accepted. -/
theorem integerTokensAreSignedDecimals : Obligations.IntegerTokensAreSignedDecimals := by
  refine ⟨fun tok v => ?_, fun name ta tb tc hnone => ?_⟩
  · rw [intToken_eq_some_iff, signedDecimal_eq_some_iff]
  · cases hr : assembleRecord name ta tb tc with
    | error f => exact ⟨f, rfl⟩
    | ok i =>
      obtain ⟨ha, hb, hc⟩ := intToken_ne_none_of_assembleRecord hr
      rcases hnone with h | h | h <;> contradiction

end Sys2Proof.Machine
end

section
/-! PROOFS. The execution cycle (40_execution_cycle.md): a step happens only while Running (R131), the
fetch (R132), a blocked IN (R141), and the refusal that no well-formed image meets (R142). -/

namespace Sys2Proof.Machine

/-! ### The fetch -/

/-- A Running state whose pc names no cell raises InstructionMemoryFault. -/
theorem step_of_pc_not_inBounds {s : State} (hr : s.runState = .running)
    (hb : inBounds Config.imemSize s.pc = false) :
    step s = .next (s.raise .instructionMemoryFault) := by
  refine step_of_fetchInstr_error hr ?_
  rcases fetchInstr_cases s with ⟨_, hf⟩ | ⟨hb', _⟩ | ⟨_, hb', _⟩
  · exact hf
  · exact absurd (hb.symm.trans hb') (by decide)
  · exact absurd (hb.symm.trans hb') (by decide)

/-- Settles O30: in range the fetch reads the cell, out of range the step only raises. -/
theorem fetchOutOfRangeFaults : Obligations.FetchOutOfRangeFaults := by
  refine ⟨fun s h => fetchWord_of_inBounds s ((inBounds_iff _ _).mpr h), fun s hr h => ?_⟩
  have hb : inBounds Config.imemSize s.pc = false := (inBounds_eq_false_iff _ _).mpr h
  exact ⟨_, step_of_pc_not_inBounds hr hb, raised_raise s _⟩

/-! ### Runs -/

/-- The inversion of a run: one of n + 1 steps begins with a step. -/
theorem step_of_runSteps_succ {n : Nat} {s t : State} (h : runSteps (n + 1) s = .next t) :
    ∃ u, step s = .next u ∧ runSteps n u = .next t := by
  cases hu : step s with
  | next u => exact ⟨u, rfl, (runSteps_succ_of_next n s u hu).symm.trans h⟩
  | fault f => rw [runSteps_succ_of_fault n s f hu] at h; cases h
  | refused r => rw [runSteps_succ_of_refused n s r hu] at h; cases h

/-- A state that steps to itself is where every run from it ends. -/
theorem runSteps_of_step_self {s : State} (h : step s = .next s) (n : Nat) :
    runSteps n s = .next s := by
  induction n with
  | zero => exact runSteps_zero s
  | succ n ih => rw [runSteps_succ_of_next n s s h, ih]

/-- Settles O32: a run of one step or more begins with a step, and only a Running state has one. -/
theorem noStepInATerminalState : Obligations.NoStepInATerminalState := by
  refine ⟨⟨rfl, rfl⟩, fun s t h => (step_effect h).1, fun s t n hr h => ?_⟩
  obtain ⟨u, hu, _⟩ := step_of_runSteps_succ h
  exact step_terminal s u hr hu

/-! ### A blocked IN -/

/-- A register write and the pc's advance after it, the pc as destination included (10_state.md R28). -/
theorem writesReg_setReg_advance (s : State) (a : Reg) (v : Word) :
    WritesReg s (s.setReg a v).advance a v := by
  refine ⟨fun ha => ⟨?_, ?_⟩, fun ha => ?_, fun r hr har => ?_⟩
  · rw [State.reg_advance_of_ne _ a ha, State.reg_setReg_same]
  · rw [State.pc_advance, State.pc_setReg, if_neg ha]
  · rw [State.pc_advance, State.pc_setReg, if_pos ha]
  · rw [State.reg_advance_of_ne _ r hr,
      State.reg_setReg_of_ne s a r v fun h => har (congrArg some h)]

/-- An arrival changes neither the run state nor the pc nor the word that is fetched. -/
theorem step_supplyInput_of_decode {s : State} {i : Instr} (hf : Fetching s)
    (hd : decode (wordAtPc s) = .ok i) (vs : List Word) :
    step (supplyInput s vs) = exec i (supplyInput s vs) :=
  step_of_decode (supplyInput s vs) i hf hd

/-- Settles O46: with no input the IN steps to the same state, so every run stays there; with a value
appended the IN is fetched again and takes it. -/
theorem blockedInWaitsForInput : Obligations.BlockedInWaitsForInput := by
  intro a b c s hf hd hin
  have hself : step s = .next s := (step_of_decode s _ hf hd).trans (exec_inp_nil a b c s hin)
  refine ⟨runSteps_of_step_self hself, fun v vs => ?_⟩
  have hhead : (supplyInput s (v :: vs)).input = v :: vs := by
    rw [supplyInput_input, hin, List.nil_append]
  refine ⟨_, (step_supplyInput_of_decode hf hd _).trans (exec_inp_cons a b c _ v vs hhead), ?_, rfl⟩
  exact writesReg_setReg_advance (s.withInput vs) a v

/-! ### Refusal and well-formed instructions -/

/-- The four two-source opcodes refuse a third operand that is no register index (30_encoding.md
R110). -/
theorem exec_twoSource_refused {i : Instr} {a b : Reg} {c : Word} (s : State)
    (hi : i = .add a b c ∨ i = .sub a b c ∨ i = .mul a b c ∨ i = .div a b c)
    (hc : ¬ (0 ≤ c.toInt ∧ c.toInt < 8)) : exec i s = .refused .operandNotRegister := by
  rcases hi with rfl | rfl | rfl | rfl
  · rw [exec_add, withSources_refused s b c _ hc]
  · rw [exec_sub, withSources_refused s b c _ hc]
  · rw [exec_mul, withSources_refused s b c _ hc]
  · rw [exec_div, withSources_refused s b c _ hc]

/-- With a register index as third operand, the two-source form answers as its handler does. -/
theorem withSources_next_of_isRegIndex (s : State) (b : Reg) {c : Word}
    {k : Word → Word → Result} (hc : isRegIndex c.toInt = true)
    (hk : ∀ m n, ∃ t, k m n = .next t) : ∃ t, withSources s b c k = .next t := by
  rcases withSources_cases s b c k with ⟨hc', _⟩ | ⟨r, _, hs⟩
  · exact absurd ((isRegIndex_iff _).mp hc) hc'
  · rw [hs]; exact hk _ _

theorem exec_branch_next (s : State) {i : Instr} {k : Cond} (h : branchCond i = some k) :
    ∃ t, exec i s = .next t := by
  rw [exec_branch s i k h]
  rcases branchOn_cases k i.operands.1 i.operands.2.1 i.operands.2.2 s with
    ⟨_, hs⟩ | ⟨_, _, hs⟩ | ⟨_, _, hs⟩ <;> exact ⟨_, hs⟩

/-- A well-formed instruction has a next state in every state: the third operand is the only ground of
a refusal. -/
theorem exec_next_of_wellFormed {i : Instr} (h : i.wellFormed = true) (s : State) :
    ∃ t, exec i s = .next t := by
  cases i with
  | halt | out | lda | ldc => exact ⟨_, rfl⟩
  | inp a b c =>
    cases hin : s.input with
    | nil => exact ⟨_, exec_inp_nil a b c s hin⟩
    | cons v rest => exact ⟨_, exec_inp_cons a b c s v rest hin⟩
  | add a b c =>
    rw [exec_add]
    exact withSources_next_of_isRegIndex s b h fun _ _ => ⟨_, rfl⟩
  | sub a b c =>
    rw [exec_sub]
    exact withSources_next_of_isRegIndex s b h fun _ _ => ⟨_, rfl⟩
  | mul a b c =>
    rw [exec_mul]
    exact withSources_next_of_isRegIndex s b h fun _ _ => ⟨_, rfl⟩
  | div a b c =>
    rw [exec_div]
    refine withSources_next_of_isRegIndex s b h fun n d => ?_
    split <;> exact ⟨_, rfl⟩
  | ld a b c =>
    cases hb : inBounds Config.dmemSize (effAddr s b c) with
    | false => exact ⟨_, exec_ld_of_not_inBounds a b c s hb⟩
    | true => exact ⟨_, exec_ld_of_inBounds a b c s hb⟩
  | st a b c =>
    cases hb : inBounds Config.dmemSize (effAddr s b c) with
    | false => exact ⟨_, exec_st_of_not_inBounds a b c s hb⟩
    | true => exact ⟨_, exec_st_of_inBounds a b c s hb⟩
  | jlt | jle | jgt | jge | jeq | jne => exact exec_branch_next s rfl

/-- No instruction latches NoSuchInstruction: only the dispatch does (60_exceptions.md R214). -/
theorem ExecEffect.faultKind_ne_noSuchInstruction {i : Instr} {s t : State}
    (h : ExecEffect i s t) (hs : s.faultKind ≠ some .noSuchInstruction) :
    t.faultKind ≠ some .noSuchInstruction := by
  cases h with
  | raisedTarget | raisedData | raisedDivide => simp
  | halted | unchanged | wrote | took | put | stored | jumped => exact hs

/-! ### Well-formed images -/

theorem cellWellFormed_iff (w : InstrWord) :
    cellWellFormed w = true ↔ ∃ i, decode w = .ok i ∧ i.wellFormed = true := by
  unfold cellWellFormed
  cases decode w <;> simp

/-- A well-formed image is a property of the instruction store alone. -/
theorem WellFormedImage.of_imem_eq {s t : State} (hs : WellFormedImage s) (h : t.imem = s.imem) :
    WellFormedImage t := fun k hk => h ▸ hs k hk

theorem WellFormedImage.of_step {s t : State} (hs : WellFormedImage s) (h : step s = .next t) :
    WellFormedImage t :=
  hs.of_imem_eq (step_imem_eq h)

/-- A well-formed image leaves the fetch one way to fail, a pc out of range; else it gives a well-formed
instruction. -/
theorem WellFormedImage.fetch_cases {s : State} (hs : WellFormedImage s) :
    fetchInstr s = .error .instructionMemoryFault ∨
      ∃ i, fetchInstr s = .ok i ∧ i.wellFormed = true := by
  have hcell (hb : inBounds Config.imemSize s.pc = true) :
      ∃ i, decode (wordAtPc s) = .ok i ∧ i.wellFormed = true :=
    (cellWellFormed_iff _).mp (hs _ (cellIndex_lt _ _ hb))
  rcases fetchInstr_cases s with ⟨_, hf⟩ | ⟨hb, ⟨_, hd⟩, _⟩ | ⟨i, hb, hd, hf⟩
  · exact .inl hf
  · obtain ⟨i, hi, _⟩ := hcell hb
    rw [hd] at hi
    cases hi
  · obtain ⟨j, hj, hwf⟩ := hcell hb
    rw [hd] at hj
    cases hj
    exact .inr ⟨i, hf, hwf⟩

/-- The step of a well-formed image: none in a terminal state, else a next state, by the fetch's one
fault or by an instruction. -/
theorem WellFormedImage.step_fault_or_next {s : State} (hs : WellFormedImage s) :
    (∃ f, step s = .fault f) ∨ ∃ t, step s = .next t ∧
      (t = s.raise .instructionMemoryFault ∨ ∃ i, ExecEffect i s t) := by
  rcases step_cases s with ⟨_, hstep⟩ | ⟨_, hstep⟩ | ⟨_, f, hf, hstep⟩ | ⟨_, i, hf, hstep⟩
  · exact .inl ⟨_, hstep⟩
  · exact .inl ⟨_, hstep⟩
  · rcases hs.fetch_cases with hf' | ⟨j, hf', _⟩ <;> rw [hf] at hf' <;> cases hf'
    exact .inr ⟨_, hstep, .inl rfl⟩
  · rcases hs.fetch_cases with hf' | ⟨j, hf', hwf⟩ <;> rw [hf] at hf' <;> cases hf'
    obtain ⟨t, ht⟩ := exec_next_of_wellFormed hwf s
    exact .inr ⟨t, hstep.trans ht, .inr ⟨i, exec_effect i s t ht⟩⟩

theorem WellFormedImage.step_ne_refused {s : State} (hs : WellFormedImage s) (r : Refusal) :
    step s ≠ .refused r := by
  rcases hs.step_fault_or_next with ⟨f, hstep⟩ | ⟨t, hstep, _⟩ <;> rw [hstep] <;> exact nofun

theorem WellFormedImage.faultKind_ne_noSuchInstruction {s t : State} (hs : WellFormedImage s)
    (hlatch : s.faultKind ≠ some .noSuchInstruction) (h : step s = .next t) :
    t.faultKind ≠ some .noSuchInstruction := by
  rcases hs.step_fault_or_next with ⟨f, hstep⟩ | ⟨u, hstep, hu⟩ <;> rw [hstep] at h <;> cases h
  rcases hu with rfl | ⟨i, he⟩
  · simp
  · exact he.faultKind_ne_noSuchInstruction hlatch

/-- Settles O48: the image never changes, so it stays well-formed; what it lets the step fetch is a
well-formed instruction, which has a next state and does not latch NoSuchInstruction. -/
theorem wellFormedImagesAreNeverRefused : Obligations.WellFormedImagesAreNeverRefused := by
  refine ⟨fun a b c s hf hc hd => ?_, fun s hs => ⟨hs.step_ne_refused, fun t h => hs.of_step h⟩,
    fun s t hs hlatch h => ⟨hs.of_step h, hs.faultKind_ne_noSuchInstruction hlatch h⟩⟩
  obtain ⟨i, hdi, hi⟩ : ∃ i, decode (wordAtPc s) = .ok i ∧
      (i = .add a b c ∨ i = .sub a b c ∨ i = .mul a b c ∨ i = .div a b c) := by
    rcases hd with hd | hd | hd | hd <;> exact ⟨_, hd, by simp⟩
  exact (step_of_decode s i hf hdi).trans (exec_twoSource_refused s hi hc)

end Sys2Proof.Machine
end

section
/-! PROOFS. HALT, IN, OUT and the arithmetic instructions (41_rr_io_arith.md): the laws of the ALU (R157
to R159), and each instruction's encoding, result and frame (R150 to R156). -/

namespace Sys2Proof.Machine

/-! ### Results within IntX (R157) -/

theorem bmod_eq_self_of_intX {v : Int} (hlo : -2 ^ 31 ≤ v) (hhi : v ≤ 2 ^ 31 - 1) :
    v.bmod (2 ^ 32) = v :=
  Int.bmod_eq_of_le_mul_two (by omega) (by omega)

theorem toInt_wrap_of_intX {v : Int} (hlo : -2 ^ 31 ≤ v) (hhi : v ≤ 2 ^ 31 - 1) :
    (wrap v).toInt = v :=
  (toInt_wrap v).trans (bmod_eq_self_of_intX hlo hhi)

/-- Every word is an element of IntX. -/
theorem toInt_intX (v : Word) : -2 ^ 31 ≤ v.toInt ∧ v.toInt ≤ 2 ^ 31 - 1 :=
  ⟨v.le_toInt, Int.le_sub_one_of_lt v.toInt_lt⟩

/-! ### Division toward zero (R158), over all integers -/

/-- The magnitude of the quotient is the quotient of the magnitudes. -/
theorem abs_tdiv (n d : Int) : |n.tdiv d| = ((n.natAbs / d.natAbs : Nat) : Int) := by
  rw [Int.abs_eq_natAbs, Int.natAbs_tdiv]
  rfl

theorem abs_tdiv_mul_le (n d : Int) : |n.tdiv d * d| ≤ |n| := by
  rw [abs_mul, abs_tdiv, Int.abs_eq_natAbs d, Int.abs_eq_natAbs n]
  exact_mod_cast Nat.div_mul_le_self n.natAbs d.natAbs

/-- The quotient is 0 or has the sign of the product of dividend and divisor. -/
theorem tdiv_mul_mul_nonneg (n d : Int) : 0 ≤ n.tdiv d * (n * d) := by
  rw [← Int.sign_nonneg_iff, Int.sign_mul, Int.sign_mul, Int.sign_tdiv]
  split
  · rw [zero_mul]
  · exact mul_self_nonneg _

theorem abs_le_abs_tdiv {n d p : Int} (hd : d ≠ 0) (h : |p * d| ≤ |n|) : |p| ≤ |n.tdiv d| := by
  rw [abs_mul, Int.abs_eq_natAbs p, Int.abs_eq_natAbs d, Int.abs_eq_natAbs n] at h
  rw [abs_tdiv, Int.abs_eq_natAbs p, Nat.cast_le, Nat.le_div_iff_mul_le (Int.natAbs_pos.mpr hd)]
  exact_mod_cast h

theorem tdiv_neg_one (n : Int) : n.tdiv (-1) = -n := by
  rw [Int.tdiv_neg, Int.tdiv_one]

/-! ### Quotients of words (R158, R159) -/

/-- No quotient is larger in magnitude than its dividend. -/
theorem tdiv_bounds (n d : Word) :
    -2 ^ 31 ≤ n.toInt.tdiv d.toInt ∧ n.toInt.tdiv d.toInt ≤ 2 ^ 31 := by
  have hq := Int.natAbs_tdiv_le_natAbs n.toInt d.toInt
  have hn := toInt_intX n
  omega

/-- A quotient of 2^31 leaves room for no divisor but 1 and -1. -/
theorem eq_one_or_neg_one_of_tdiv_eq {n d : Word} (hd : d.toInt ≠ 0)
    (hq : n.toInt.tdiv d.toInt = 2 ^ 31) : d.toInt = 1 ∨ d.toInt = -1 := by
  have hle := abs_tdiv_mul_le n.toInt d.toInt
  rw [hq, Int.abs_eq_natAbs, Int.abs_eq_natAbs] at hle
  have hn := toInt_intX n
  omega

/-- The one quotient outside IntX. -/
theorem tdiv_not_intX_iff {n d : Word} (hd : d.toInt ≠ 0) :
    ¬ (-2 ^ 31 ≤ n.toInt.tdiv d.toInt ∧ n.toInt.tdiv d.toInt ≤ 2 ^ 31 - 1) ↔
      n.toInt = -2 ^ 31 ∧ d.toInt = -1 := by
  constructor
  · intro hout
    have hq : n.toInt.tdiv d.toInt = 2 ^ 31 := by
      have hbounds := tdiv_bounds n d
      omega
    have hn := toInt_intX n
    rcases eq_one_or_neg_one_of_tdiv_eq hd hq with h1 | h1
    · rw [h1, Int.tdiv_one] at hq
      omega
    · rw [h1, tdiv_neg_one] at hq
      omega
  · rintro ⟨hn, h1⟩
    rw [hn, h1, tdiv_neg_one]
    omega

/-- The divider's quotient is the true one, the overflow pair apart. -/
theorem aluDiv_exact {n d : Word} (hd : d.toInt ≠ 0)
    (hpair : ¬ (n.toInt = -2 ^ 31 ∧ d.toInt = -1)) :
    ∃ q : Word, aluDiv n d = some q ∧ q.toInt = n.toInt.tdiv d.toInt := by
  obtain ⟨hlo, hhi⟩ := not_not.mp ((tdiv_not_intX_iff hd).not.mpr hpair)
  exact ⟨_, aluDiv_of_ne n d hd, toInt_wrap_of_intX hlo hhi⟩

theorem aluDiv_one (n : Word) : aluDiv n 1 = some n := by
  have h1 : BitVec.toInt (1 : Word) = 1 := rfl
  rw [aluDiv_of_ne n 1 (by decide), h1, Int.tdiv_one, wrap_toInt]

theorem aluDiv_neg_one {n : Word} (hn : n.toInt ≠ -2 ^ 31) :
    ∃ q, aluDiv n (-1) = some q ∧ q.toInt = -n.toInt := by
  have h1 : BitVec.toInt (-1 : Word) = -1 := rfl
  obtain ⟨q, hdiv, hq⟩ := aluDiv_exact (n := n) (d := -1) (by decide) fun h => hn h.1
  exact ⟨q, hdiv, by rw [hq, h1, tdiv_neg_one]⟩

/-- Settles O9: off the overflow pair the divider gives the true quotient, which has the three properties
over all integers; the rule's table is eight closed rows and three general ones. -/
theorem divisionTruncatesTowardZero : Obligations.DivisionTruncatesTowardZero := by
  refine ⟨fun n d hd hpair => ?_, by decide, by decide, by decide, by decide, by decide, by decide,
    by decide, by decide, aluDiv_one, fun _ => aluDiv_neg_one, fun n => aluDiv_of_eq n 0 rfl⟩
  obtain ⟨q, hdiv, hq⟩ := aluDiv_exact hd hpair
  refine ⟨q, hdiv, ?_⟩
  rw [hq]
  exact ⟨abs_tdiv_mul_le _ _, tdiv_mul_mul_nonneg _ _, fun _ => abs_le_abs_tdiv hd⟩

/-! ### Encodings -/

/-- An opcode whose instructions all have one tag and hold the operands as given. -/
theorem encodedWithTag_of_tagOf {mk : Reg → Reg → Word → Instr} {tag : Nat}
    (h : ∀ a b c, tagOf (mk a b c) = tag ∧ (mk a b c).operands = (a, b, c)) :
    EncodedWithTag mk tag := by
  intro a b c
  obtain ⟨htag, hop⟩ := h a b c
  rw [toNat_encode, htag, hop]

/-! ### A register write with the advance, and the advance alone -/

/-- Writing a register and advancing touches no cell, no status and no stream. -/
theorem frame_setReg_advance (s : State) (a : Reg) (v : Word) :
    CellsKept s (s.setReg a v).advance (fun _ => False) ∧ ImageKept s (s.setReg a v).advance ∧
      StatusKept s (s.setReg a v).advance ∧ StreamsKept s (s.setReg a v).advance :=
  ⟨fun _ _ => rfl, fun _ => rfl, ⟨rfl, rfl⟩, ⟨rfl, rfl⟩⟩

theorem regsKept_advance (s : State) : RegsKept s s.advance none :=
  fun r hr _ => s.reg_advance_of_ne r hr

/-- If a two-source instruction that only writes its result answers a next state, it has written a
value and advanced. -/
theorem eq_setReg_advance_of_withSources {s t : State} {a b : Reg} {c : Word}
    {f : Word → Word → Word}
    (h : withSources s b c (fun m n => .next (s.setReg a (f m n)).advance) = .next t) :
    ∃ v, t = (s.setReg a v).advance := by
  rcases withSources_cases s b c fun m n => .next (s.setReg a (f m n)).advance with
    ⟨_, hs⟩ | ⟨r, _, hs⟩ <;> rw [hs] at h <;> cases h
  exact ⟨_, rfl⟩

/-- Settles O8: the results are those of `wrap`, and the four instructions only write a register and
advance. -/
theorem arithmeticWrapsSilently : Obligations.ArithmeticWrapsSilently := by
  refine ⟨fun m n => ⟨toInt_wrap _, toInt_wrap _, toInt_wrap _⟩,
    fun v hlo hhi => bmod_eq_self_of_intX hlo hhi, fun s b c => ⟨toInt_wrap _, ?_⟩,
    fun a b c s t h => ?_⟩
  · rw [State.pc_advance, toInt_wrap]
  · obtain ⟨v, rfl⟩ : ∃ v, t = (s.setReg a v).advance := by
      rcases h with h | h | h | h
      · exact eq_setReg_advance_of_withSources ((exec_add a b c s).symm.trans h)
      · exact eq_setReg_advance_of_withSources ((exec_sub a b c s).symm.trans h)
      · exact eq_setReg_advance_of_withSources ((exec_mul a b c s).symm.trans h)
      · rw [exec_lda] at h
        cases h
        exact ⟨_, rfl⟩
    obtain ⟨_, _, hstatus, _⟩ := frame_setReg_advance s a v
    exact hstatus

/-! ### HALT, IN, OUT -/

/-- Settles O17: HALT's next state differs in the run state alone. -/
theorem haltStopsTheEngine : Obligations.HaltStopsTheEngine := by
  refine ⟨encodedWithTag_of_tagOf fun _ _ _ => ⟨rfl, rfl⟩, rfl, fun a b c s => ?_⟩
  exact ⟨_, exec_halt a b c s, s.halt_runState, s.halt_faultKind, s.reg_halt, fun _ _ => rfl,
    fun _ => rfl, ⟨s.halt_input, s.halt_output⟩⟩

/-- Settles O18: a waiting value leaves the stream and is written as any result is; with none waiting the
state is the same. -/
theorem inTakesOneInputValue : Obligations.InTakesOneInputValue := by
  refine ⟨encodedWithTag_of_tagOf fun _ _ _ => ⟨rfl, rfl⟩, rfl,
    fun a b c s v rest hin => ?_, exec_inp_nil⟩
  obtain ⟨hcells, himage, hstatus, _⟩ := frame_setReg_advance (s.withInput rest) a v
  exact ⟨_, exec_inp_cons a b c s v rest hin, writesReg_setReg_advance (s.withInput rest) a v,
    rfl, rfl, hcells, himage, hstatus⟩

/-- Settles O19: OUT appends to the output and advances, and the append touches no register. -/
theorem outAppendsTheRegister : Obligations.OutAppendsTheRegister := by
  refine ⟨encodedWithTag_of_tagOf fun _ _ _ => ⟨rfl, rfl⟩, rfl, fun a b c s => ?_⟩
  refine ⟨_, exec_out a b c s, ?_, ?_, ?_, regsKept_advance (putOutput s (s.reg a)),
    fun _ _ => rfl, fun _ => rfl, ⟨rfl, rfl⟩⟩
  · rw [State.advance_output, putOutput_output]
  · rw [State.advance_input, putOutput_input]
  · rw [State.pc_advance, pc_putOutput]

/-! ### ADD, SUB, MUL -/

/-- A two-source opcode that writes the wrapped f of its sources. -/
theorem computesFromSources_of_exec {mk : Reg → Reg → Word → Instr} {f : Int → Int → Int}
    (h : ∀ a b c s, exec (mk a b c) s =
      withSources s b c fun m n => .next (s.setReg a (wrap (f m.toInt n.toInt))).advance) :
    ComputesFromSources mk f := by
  intro a b r c s hc
  refine ⟨_, (h a b c s).trans (withSources_of_reg s b r c _ hc), ?_⟩
  exact ⟨writesReg_setReg_advance s a _, frame_setReg_advance s a _⟩

/-- Settles O20: with a register index the three opcodes write their wrapped result, without one they
refuse. -/
theorem addSubMulWriteTheWrappedResult : Obligations.AddSubMulWriteTheWrappedResult := by
  refine ⟨⟨encodedWithTag_of_tagOf fun _ _ _ => ⟨rfl, rfl⟩,
      encodedWithTag_of_tagOf fun _ _ _ => ⟨rfl, rfl⟩,
      encodedWithTag_of_tagOf fun _ _ _ => ⟨rfl, rfl⟩⟩, ⟨rfl, rfl, rfl⟩,
    computesFromSources_of_exec exec_add, computesFromSources_of_exec exec_sub,
    computesFromSources_of_exec exec_mul, fun a b c s hc => ⟨?_, ?_, ?_⟩⟩
  · exact exec_twoSource_refused s (.inl rfl) hc
  · exact exec_twoSource_refused s (.inr (.inl rfl)) hc
  · exact exec_twoSource_refused s (.inr (.inr (.inl rfl))) hc

/-! ### DIV -/

section Div

variable (a b : Reg) {r : Reg} {c : Word} (s : State)

theorem exec_div_of_ne (hc : c.toInt = (r.val : Int)) (hd : (s.reg r).toInt ≠ 0) :
    exec (.div a b c) s =
      .next (s.setReg a (wrap ((s.reg b).toInt.tdiv (s.reg r).toInt))).advance := by
  rw [exec_div, withSources_of_reg s b r c _ hc, if_neg hd]

theorem exec_div_of_eq_zero (hc : c.toInt = (r.val : Int)) (hd : (s.reg r).toInt = 0) :
    exec (.div a b c) s = .next (s.raise .divideByZero) := by
  rw [exec_div, withSources_of_reg s b r c _ hc, if_pos hd]

end Div

/-- Settles O21: the two arms of DIV by the divisor's value. -/
theorem divWritesTheQuotientOrFaults : Obligations.DivWritesTheQuotientOrFaults := by
  refine ⟨encodedWithTag_of_tagOf fun _ _ _ => ⟨rfl, rfl⟩, rfl,
    fun a b r c s hc hd => ?_, fun a b r c s hc hd => ?_⟩
  · exact ⟨_, exec_div_of_ne a b s hc hd, writesReg_setReg_advance s a _,
      frame_setReg_advance s a _⟩
  · exact ⟨_, exec_div_of_eq_zero a b s hc hd, raised_raise s _⟩

/-- Settles O10: the overflow pair is the one that `tdiv_not_intX_iff` names, and DIV on it writes the
wrapped quotient as on any other divisor than 0. -/
theorem divisionOverflowWraps : Obligations.DivisionOverflowWraps := by
  refine ⟨fun n d hd => tdiv_not_intX_iff hd, fun a b r c s hc hn hd => ?_⟩
  have hexec := exec_div_of_ne a b s hc (by rw [hd]; decide)
  have hwrap : wrap ((-2 ^ 31 : Int).tdiv (-1)) = BitVec.ofInt 32 (-2 ^ 31) := by decide
  rw [hn, hd, hwrap] at hexec
  obtain ⟨_, _, hstatus, _⟩ := frame_setReg_advance s a (BitVec.ofInt 32 (-2 ^ 31))
  exact ⟨_, hexec, writesReg_setReg_advance s a _, hstatus⟩

end Sys2Proof.Machine
end

section
/-! PROOFS. Loads and stores (42_rm_load_store.md): LD (R171), ST (R172), and a load after a store at the
same address (R173, with 20_memory.md R77). -/

namespace Sys2Proof.Machine

/-- Settles O22: the two arms of LD, each on its side of R63's test; in range the cell is written as any
result is. -/
theorem ldLoadsTheCellOrFaults : Obligations.LdLoadsTheCellOrFaults := by
  refine ⟨encodedWithTag_of_tagOf fun _ _ _ => ⟨rfl, rfl⟩, rfl,
    fun a b c s => ⟨fun h => ?_, fun h => ?_⟩⟩
  · have hb : inBounds Config.dmemSize (effAddr s b c) = true := (inBounds_iff _ _).mpr h
    exact ⟨_, exec_ld_of_inBounds a b c s hb, writesReg_setReg_advance s a _,
      frame_setReg_advance s a _⟩
  · have hb : inBounds Config.dmemSize (effAddr s b c) = false := (inBounds_eq_false_iff _ _).mpr h
    exact ⟨_, exec_ld_of_not_inBounds a b c s hb, raised_raise s _⟩

/-- Settles O23: the two arms of ST, each on its side of R63's test; in range read after write speaks for
each cell, and the advance touches no cell and no register but the pc. -/
theorem stStoresTheRegisterOrFaults : Obligations.StStoresTheRegisterOrFaults := by
  refine ⟨encodedWithTag_of_tagOf fun _ _ _ => ⟨rfl, rfl⟩, rfl,
    fun a b c s => ⟨fun h => ?_, fun h => ?_⟩⟩
  · have hb : inBounds Config.dmemSize (effAddr s b c) = true := (inBounds_iff _ _).mpr h
    exact ⟨_, exec_st_of_inBounds a b c s hb, Memory.read_write_same s.dmem _ _,
      cellsKept_write s _ _, State.pc_advance _, regsKept_advance _, fun _ => rfl, ⟨rfl, rfl⟩,
      ⟨rfl, rfl⟩⟩
  · have hb : inBounds Config.dmemSize (effAddr s b c) = false := (inBounds_eq_false_iff _ _).mpr h
    exact ⟨_, exec_st_of_not_inBounds a b c s hb, raised_raise s _⟩

/-- Settles O16, from ST's and LD's own statements: ST makes the cell `x[a]`, the cell is untouched until
the load, and LD at that address copies it. -/
theorem storeThenLoadReturnsTheValue : Obligations.StoreThenLoadReturnsTheValue := by
  intro a b a2 b2 c c2 s t u hst hlo hhi haddr hkept
  obtain ⟨_, _, hstore⟩ := stStoresTheRegisterOrFaults
  obtain ⟨_, _, hload⟩ := ldLoadsTheCellOrFaults
  obtain ⟨t', hst', hstored, _⟩ := (hstore a b c s).1 ⟨hlo, hhi⟩
  obtain rfl : t = t' := Host.Outcome.next.inj (hst.symm.trans hst')
  obtain ⟨v, hld, hwrites, _⟩ := (hload a2 b2 c2 u).1 (by rw [haddr]; exact ⟨hlo, hhi⟩)
  rw [haddr, hkept, hstored] at hwrites
  exact ⟨v, hld, hwrites⟩

end Sys2Proof.Machine
end

section
/-! PROOFS. Register-immediate instructions (43_ra_immediate.md): LDA (R180), LDC (R181). -/

namespace Sys2Proof.Machine

/-- The effective address in the spec's form (20_memory.md R78). -/
theorem effAddr_eq_wrap (s : State) (b : Reg) (c : Word) :
    effAddr s b c = wrap ((s.reg b).toInt + c.toInt) := rfl

/-- An instruction whose arm only writes v to `x[a]` and advances has the effect and the frame that the
statements ask of a result. -/
theorem writesReg_and_frame_of_exec {i : Instr} {a : Reg} {v : Word} {s : State}
    (h : exec i s = .next (s.setReg a v).advance) :
    ∃ t, exec i s = .next t ∧ WritesReg s t a v ∧
      CellsKept s t (fun _ => False) ∧ ImageKept s t ∧ StatusKept s t ∧ StreamsKept s t :=
  ⟨_, h, writesReg_setReg_advance s a v, frame_setReg_advance s a v⟩

/-- Settles O24: each of the two arms writes its value with no test before it; LDA's value is the
effective address (R180), LDC's the third operand (R181). -/
theorem ldaAndLdcWriteTheirValue : Obligations.LdaAndLdcWriteTheirValue := by
  refine ⟨⟨encodedWithTag_of_tagOf fun _ _ _ => ⟨rfl, rfl⟩, rfl⟩,
    ⟨encodedWithTag_of_tagOf fun _ _ _ => ⟨rfl, rfl⟩, rfl, rfl⟩,
    fun a b c s => ?_, fun a b c s => ?_⟩
  · rw [← effAddr_eq_wrap]
    exact writesReg_and_frame_of_exec (exec_lda a b c s)
  · exact writesReg_and_frame_of_exec (exec_ldc a b c s)

end Sys2Proof.Machine
end

section
/-! PROOFS. Conditional branches (44_ra_branches.md): the comparisons (R201), the target tested before the
condition (R190, R191), a branch taken (R193) or not (R192), and the six opcodes (R194 to R199). -/

namespace Sys2Proof.Machine

/-! ### The comparisons (R201) -/

section Comparisons

variable (v : Word)

@[simp] theorem Cond.holds_lt_iff : Cond.lt.holds v = true ↔ v.toInt < 0 := decide_eq_true_iff
@[simp] theorem Cond.holds_le_iff : Cond.le.holds v = true ↔ v.toInt ≤ 0 := decide_eq_true_iff
@[simp] theorem Cond.holds_gt_iff : Cond.gt.holds v = true ↔ 0 < v.toInt := decide_eq_true_iff
@[simp] theorem Cond.holds_ge_iff : Cond.ge.holds v = true ↔ 0 ≤ v.toInt := decide_eq_true_iff
@[simp] theorem Cond.holds_eq_iff : Cond.eq.holds v = true ↔ v.toInt = 0 := decide_eq_true_iff
@[simp] theorem Cond.holds_ne_iff : Cond.ne.holds v = true ↔ v.toInt ≠ 0 := decide_eq_true_iff

end Comparisons

/-- Settles O11: the comparison of each opcode over every word; the rule's table and extreme values are
closed facts. -/
theorem comparisonsAreSigned : Obligations.ComparisonsAreSigned :=
  ⟨fun v => ⟨Cond.holds_lt_iff v, Cond.holds_le_iff v, Cond.holds_gt_iff v, Cond.holds_ge_iff v,
      Cond.holds_eq_iff v, Cond.holds_ne_iff v⟩,
    by decide, by decide, by decide⟩

/-! ### The handler, case by case -/

section Handler

variable (k : Cond) (a b : Reg) (c : Word) (s : State)

/-- No premise on the condition: the target is tested first (R191). -/
theorem branchOn_of_not_inBounds (hb : inBounds Config.imemSize (effAddr s b c) = false) :
    branchOn k a b c s = .next (s.raise .instructionMemoryFault) :=
  ((branchOn_cases k a b c s).resolve_right (by simp [hb])).2

theorem branchOn_of_holds (hb : inBounds Config.imemSize (effAddr s b c) = true)
    (hk : k.holds (s.reg a) = true) : branchOn k a b c s = .next (s.setPc (effAddr s b c)) := by
  have hin := (branchOn_cases k a b c s).resolve_left (by simp [hb])
  exact (hin.resolve_right (by simp [hk])).2.2

theorem branchOn_of_not_holds (hb : inBounds Config.imemSize (effAddr s b c) = true)
    (hk : k.holds (s.reg a) = false) : branchOn k a b c s = .next s := by
  have hin := (branchOn_cases k a b c s).resolve_left (by simp [hb])
  exact (hin.resolve_left (by simp [hk])).2.2

end Handler

/-- Writing the pc touches no other register, no cell, no status and no stream. -/
theorem frame_setPc (s : State) (v : Word) :
    RegsKept s (s.setPc v) none ∧ CellsKept s (s.setPc v) (fun _ => False) ∧
      ImageKept s (s.setPc v) ∧ StatusKept s (s.setPc v) ∧ StreamsKept s (s.setPc v) :=
  ⟨fun r hr _ => s.reg_setPc_of_ne r v hr, fun _ _ => rfl, fun _ => rfl, ⟨rfl, rfl⟩, ⟨rfl, rfl⟩⟩

/-! ### The six opcodes -/

/-- An opcode whose instructions all branch on k follows the rule of branches for the comparison that k
stands for. -/
theorem branchesOn_of_branchCond {mk : Reg → Reg → Word → Instr} {k : Cond} {cond : Int → Prop}
    (hmk : ∀ a b c, branchCond (mk a b c) = some k ∧ (mk a b c).operands = (a, b, c))
    (hcond : ∀ v : Word, k.holds v = true ↔ cond v.toInt) : BranchesOn mk cond := by
  intro a b c s
  have hexec : exec (mk a b c) s = branchOn k a b c s := by
    obtain ⟨hk, hop⟩ := hmk a b c
    rw [exec_branch s _ k hk, hop]
  refine ⟨fun hin hc => ?taken, fun hin hc => ?notTaken, fun hout => ?outOfRange⟩
  case taken =>
    have hb : inBounds Config.imemSize (effAddr s b c) = true := (inBounds_iff _ _).mpr hin
    exact ⟨_, hexec.trans (branchOn_of_holds k a b c s hb ((hcond _).mpr hc)), s.pc_setPc _,
      frame_setPc s _⟩
  case notTaken =>
    have hb : inBounds Config.imemSize (effAddr s b c) = true := (inBounds_iff _ _).mpr hin
    have hk : k.holds (s.reg a) = false := Bool.eq_false_iff.mpr ((hcond _).not.mpr hc)
    exact hexec.trans (branchOn_of_not_holds k a b c s hb hk)
  case outOfRange =>
    have hb : inBounds Config.imemSize (effAddr s b c) = false :=
      (inBounds_eq_false_iff _ _).mpr hout
    exact ⟨_, hexec.trans (branchOn_of_not_inBounds k a b c s hb), raised_raise s _⟩

/-- Settles O25: each opcode has its tag and branches on its own comparison, so the one rule of branches
is the rule of all six. -/
theorem branchesTestTargetThenCondition : Obligations.BranchesTestTargetThenCondition := by
  refine ⟨⟨encodedWithTag_of_tagOf ?_, rfl, branchesOn_of_branchCond ?_ Cond.holds_lt_iff⟩,
    ⟨encodedWithTag_of_tagOf ?_, rfl, branchesOn_of_branchCond ?_ Cond.holds_le_iff⟩,
    ⟨encodedWithTag_of_tagOf ?_, rfl, branchesOn_of_branchCond ?_ Cond.holds_gt_iff⟩,
    ⟨encodedWithTag_of_tagOf ?_, rfl, branchesOn_of_branchCond ?_ Cond.holds_ge_iff⟩,
    ⟨encodedWithTag_of_tagOf ?_, rfl, branchesOn_of_branchCond ?_ Cond.holds_eq_iff⟩,
    ⟨encodedWithTag_of_tagOf ?_, rfl, branchesOn_of_branchCond ?_ Cond.holds_ne_iff⟩⟩ <;>
  exact fun _ _ _ => ⟨rfl, rfl⟩

/-! ### A branch that is not taken -/

/-- Settles O47: the fetched branch steps to the same state, so every run stays there. -/
theorem notTakenBranchRepeatsForever : Obligations.NotTakenBranchRepeatsForever := by
  intro i k s hf hd hk hlo hhi hcond
  have hb : inBounds Config.imemSize (addrOf i s) = true := (inBounds_iff _ _).mpr ⟨hlo, hhi⟩
  have hself : step s = .next s := by
    rw [step_of_decode s i hf hd, exec_branch s i k hk]
    exact branchOn_of_not_holds k _ _ _ s hb hcond
  exact runSteps_of_step_self hself

end Sys2Proof.Machine
end

section
/-! PROOFS. Exceptions (60_exceptions.md): the latch's codes (R215), which part of a step raises which
fault (R217), and what raising one does (R218). -/

namespace Sys2Proof.Machine

/-! ### The codes of the status ports -/

/-- The code 3 is free: there are three run states. -/
theorem RunState.code_ne_three (r : RunState) : r.code ≠ 3 := by
  cases r <;> decide

/-- The codes 5 to 7 are free: there are four kinds and None. -/
theorem toNat_faultCode_le (k : Option FaultKind) : (faultCode k).toNat ≤ 4 := by
  cases k with
  | none => decide
  | some f => cases f <;> decide

/-- Settles O37: the codes are read off their definitions, and the ports show no others. -/
theorem statusPortCodes : Obligations.StatusPortCodes :=
  ⟨⟨rfl, rfl, rfl, rfl, rfl⟩, ⟨rfl, rfl, rfl⟩,
    fun s => ⟨s.runState.code_ne_three, toNat_faultCode_le s.faultKind⟩⟩

/-! ### Raising a fault -/

/-- Settles O33: `raise` writes run state and latch alone, and Faulted has no step. -/
theorem raisingWritesOnlyTheLatch : Obligations.RaisingWritesOnlyTheLatch := by
  refine fun s f => ⟨raised_raise s f, fun t => step_terminal (s.raise f) t ?_⟩
  rw [State.raise_runState]
  exact nofun

/-! ### The table of faults -/

/-- A word that the decoder rejects has a tag of 17 or more: every smaller one has its arm. -/
theorem le_tag_of_decode_error {w : InstrWord} {e : Reject} (h : decode w = .error e) :
    17 ≤ w.toNat / 2 ^ 38 := by
  rw [← toNat_opField]
  unfold decode instrOfTag at h
  split at h <;> cases h
  simp only [imp_false] at *
  omega

/-- The rows of R217's table, one for each kind of fault: what a state must be for its step to raise
it. -/
def FaultCause (s : State) : FaultKind → Prop
  | .instructionMemoryFault =>
    ¬ (0 ≤ s.pc.toInt ∧ s.pc.toInt < 1024) ∨
      (Fetching s ∧ ∃ i, decode (wordAtPc s) = .ok i ∧ branchCond i ≠ none ∧
        ¬ (0 ≤ (addrOf i s).toInt ∧ (addrOf i s).toInt < 1024))
  | .dataMemoryFault =>
    Fetching s ∧ ∃ a b c,
      (decode (wordAtPc s) = .ok (.ld a b c) ∨ decode (wordAtPc s) = .ok (.st a b c)) ∧
        ¬ (0 ≤ (effAddr s b c).toInt ∧ (effAddr s b c).toInt < 1024)
  | .divideByZero =>
    Fetching s ∧ ∃ a b r c, decode (wordAtPc s) = .ok (.div a b c) ∧
      c.toInt = (r.val : Int) ∧ (s.reg r).toInt = 0
  | .noSuchInstruction => Fetching s ∧ 17 ≤ (wordAtPc s).toNat / 2 ^ 38

/-- A Running state in a row of the table raises that row's fault. -/
theorem FaultCause.step_raised {s : State} {f : FaultKind} (h : FaultCause s f)
    (hr : s.runState = .running) : ∃ t, step s = .next t ∧ Raised s t f := by
  cases f with
  | instructionMemoryFault =>
    rcases h with hpc | ⟨hfetch, i, hd, hk, htarget⟩
    · exact fetchOutOfRangeFaults.2 s hr hpc
    · obtain ⟨k, hk⟩ := Option.ne_none_iff_exists'.mp hk
      have hb : inBounds Config.imemSize (addrOf i s) = false :=
        (inBounds_eq_false_iff _ _).mpr htarget
      have hexec := (exec_branch s i k hk).trans (branchOn_of_not_inBounds k _ _ _ s hb)
      exact ⟨_, (step_of_decode s i hfetch hd).trans hexec, raised_raise s _⟩
  | dataMemoryFault =>
    obtain ⟨hfetch, a, b, c, hd, haddr⟩ := h
    have hb : inBounds Config.dmemSize (effAddr s b c) = false :=
      (inBounds_eq_false_iff _ _).mpr haddr
    refine ⟨_, ?_, raised_raise s _⟩
    rcases hd with hd | hd
    · exact (step_of_decode s _ hfetch hd).trans (exec_ld_of_not_inBounds a b c s hb)
    · exact (step_of_decode s _ hfetch hd).trans (exec_st_of_not_inBounds a b c s hb)
  | divideByZero =>
    obtain ⟨hfetch, a, b, r, c, hd, hc, hzero⟩ := h
    have hexec := exec_div_of_eq_zero a b s hc hzero
    exact ⟨_, (step_of_decode s _ hfetch hd).trans hexec, raised_raise s _⟩
  | noSuchInstruction =>
    obtain ⟨hfetch, htag⟩ := h
    exact unknownTagRaisesNoSuchInstruction.1 s hfetch htag

/-- The fault of a fetch or of a dispatch is in the table. -/
theorem faultCause_of_fetchInstr_error {s : State} {f : FaultKind} (hr : s.runState = .running)
    (h : fetchInstr s = .error f) : FaultCause s f := by
  rcases fetchInstr_cases s with ⟨hb, hf⟩ | ⟨hb, ⟨_, hd⟩, hf⟩ | ⟨_, _, _, hf⟩ <;>
    rw [hf] at h <;> cases h
  · exact .inl ((inBounds_eq_false_iff _ _).mp hb)
  · exact ⟨⟨hr, (inBounds_iff _ _).mp hb⟩, le_tag_of_decode_error hd⟩

/-- A fetched instruction latches a fault of the table or leaves the latch as it is. -/
theorem ExecEffect.latch_cases {i : Instr} {s t : State} (h : ExecEffect i s t)
    (hfetch : Fetching s) (hd : decode (wordAtPc s) = .ok i) :
    (∃ f, FaultCause s f ∧ t.faultKind = some f) ∨ t.faultKind = s.faultKind := by
  cases h with
  | raisedTarget k hk hb =>
    have hbranch : branchCond i ≠ none := Option.ne_none_iff_exists'.mpr ⟨k, hk⟩
    have htarget := (inBounds_eq_false_iff _ _).mp hb
    exact .inl ⟨.instructionMemoryFault, .inr ⟨hfetch, i, hd, hbranch, htarget⟩, rfl⟩
  | raisedData a b c hi hb =>
    have haddr := (inBounds_eq_false_iff _ _).mp hb
    have hop := hi.imp (fun hi => hi ▸ hd) (fun hi => hi ▸ hd)
    exact .inl ⟨.dataMemoryFault, ⟨hfetch, a, b, c, hop, haddr⟩, rfl⟩
  | raisedDivide a b r c hi hc hzero =>
    exact .inl ⟨.divideByZero, ⟨hfetch, a, b, r, c, hi ▸ hd, hc, hzero⟩, rfl⟩
  | halted | unchanged | wrote | took | put | stored | jumped => exact .inr rfl

/-- A step latches a fault of the table or leaves the latch as it is. -/
theorem step_latch_cases {s t : State} (h : step s = .next t) :
    (∃ f, FaultCause s f ∧ t.faultKind = some f) ∨ t.faultKind = s.faultKind := by
  rcases step_cases s with ⟨_, hs⟩ | ⟨_, hs⟩ | ⟨hr, f, hf, hs⟩ | ⟨hr, i, hf, hs⟩ <;> rw [hs] at h
  · cases h
  · cases h
  · cases h
    exact .inl ⟨f, faultCause_of_fetchInstr_error hr hf, rfl⟩
  · obtain ⟨hfetch, hd⟩ := fetching_of_fetchInstr hr hf
    exact (exec_effect i s t h).latch_cases hfetch hd

/-- With no fault latched before it, a step latches exactly the fault whose row its state is in. -/
theorem step_faultKind_eq_some_iff {s t : State} (hnone : s.faultKind = none)
    (h : step s = .next t) (f : FaultKind) : t.faultKind = some f ↔ FaultCause s f := by
  constructor
  · intro hf
    rcases step_latch_cases h with ⟨g, hcause, hg⟩ | hkept
    · obtain rfl : g = f := Option.some.inj (hg.symm.trans hf)
      exact hcause
    · rw [hkept, hnone] at hf
      cases hf
  · intro hcause
    obtain ⟨u, hu, hraised⟩ := hcause.step_raised (step_effect h).1
    obtain rfl : t = u := Host.Outcome.next.inj (h.symm.trans hu)
    obtain ⟨_, hlatch, _⟩ := hraised
    exact hlatch

/-- Settles O35: each of the four equivalences is one row of the table. -/
theorem faultTableIsComplete : Obligations.FaultTableIsComplete := by
  intro s t hnone h
  have hrow := step_faultKind_eq_some_iff hnone h
  exact ⟨hrow .instructionMemoryFault, hrow .dataMemoryFault, hrow .divideByZero,
    hrow .noSuchInstruction⟩

end Sys2Proof.Machine
end

section
/-! PROOFS. Reset (70_reset_and_hazards.md R251): the values of registers, cells, statuses and streams
in the state after setup. -/

namespace Sys2Proof.Machine

/-! ### Reset values -/

@[simp] theorem Memory.read_nil {w : Nat} (k : Nat) : Memory.read ([] : Memory w) k = 0#w := rfl

@[simp] theorem State.reg_setup (inp : List Word) (r : Reg) : (setup inp).reg r = 0 :=
  Vector.getElem_replicate r.isLt

/-- The all-zero word is HALT 0 0 0 (R251). -/
theorem decode_zero : decode 0#43 = .ok (.halt 0 0 0) := rfl

/-- Settles O51: the registers are eight zeros and neither store lists a cell, so a cell reads as 0,
which decodes as HALT; setup changes nothing of the reset but the input. -/
theorem resetValues : Obligations.ResetValues := fun inp =>
  have hreg := State.reg_setup inp
  have hdata : ∀ k, (setup inp).dmem.read k = 0 := Memory.read_nil
  have hcell : ∀ k, (setup inp).imem.read k = 0 := Memory.read_nil
  have hhalt : ∀ k, decode ((setup inp).imem.read k) = .ok (.halt 0 0 0) := fun k =>
    (congrArg decode (hcell k)).trans decode_zero
  ⟨hreg, hreg Config.pcReg, hdata, fun k => ⟨hcell k, hhalt k⟩, rfl, rfl, rfl, rfl⟩

end Sys2Proof.Machine
end

section
/-! PROOFS. The word as a bijection with the instructions (30_encoding.md section 3): the fields of an
encoded instruction, the round trip in both directions, and the words that are no instruction (R106,
R107). -/

namespace Sys2Proof.Machine

/-! ### The fields of an encoded instruction -/

section EncodedFields

variable (i : Instr)

/-- The word of an instruction in natural numbers throughout, its third operand as bits. -/
theorem toNat_encode_bits : (encode i).toNat =
    tagOf i * 2 ^ 38 + i.operands.1.val * 2 ^ 35 + i.operands.2.1.val * 2 ^ 32 +
      i.operands.2.2.toNat := by
  rw [toNat_encode, toNat_toInt_emod]

theorem toNat_cField (w : InstrWord) : (cField w).toNat = w.toNat % 2 ^ 32 := by
  rw [cField, BitVec.extractLsb'_toNat, Nat.shiftRight_zero]

theorem opField_encode : (opField (encode i)).toNat = tagOf i := by
  rw [toNat_opField, toNat_encode_div]

theorem aField_encode : aField (encode i) = i.operands.1 := by
  have hb := i.operands.2.1.isLt
  have hc := i.operands.2.2.isLt
  rw [Fin.ext_iff, val_aField, toNat_encode_bits]
  omega

theorem bField_encode : bField (encode i) = i.operands.2.1 := by
  have hc := i.operands.2.2.isLt
  rw [Fin.ext_iff, val_bField, toNat_encode_bits]
  omega

theorem cField_encode : cField (encode i) = i.operands.2.2 := by
  have hc := i.operands.2.2.isLt
  rw [← BitVec.toNat_inj, toNat_cField, toNat_encode_bits]
  omega

/-- The arm of an instruction's own tag builds the instruction again. -/
theorem instrOfTag_tagOf {tag : BitVec 5} (h : tag.toNat = tagOf i) :
    instrOfTag tag i.operands.1 i.operands.2.1 i.operands.2.2 = .ok i := by
  unfold instrOfTag
  rw [h]
  cases i <;> rfl

end EncodedFields

/-! ### The round trips -/

/-- Settles O1: the decoder reads back the tag and the three operands, and the tag's arm is the
instruction's own. -/
theorem decodeOfEncode : Obligations.DecodeOfEncode := by
  intro i
  rw [decode, aField_encode, bField_encode, cField_encode]
  exact instrOfTag_tagOf i (opField_encode i)

/-- The four fields cover the word. -/
theorem toNat_eq_fields (w : InstrWord) : w.toNat =
    (opField w).toNat * 2 ^ 38 + (aField w).val * 2 ^ 35 + (bField w).val * 2 ^ 32 +
      (cField w).toNat := by
  rw [toNat_opField, val_aField, val_bField, toNat_cField]
  omega

/-- Settles O2: the instruction holds the word's four fields, and the fields cover the word. -/
theorem encodeOfDecode : Obligations.EncodeOfDecode := by
  intro w i h
  obtain ⟨htag, hop⟩ := tagOf_operands_of_decode h
  rw [← BitVec.toNat_inj, toNat_encode_bits, htag, hop, ← toNat_eq_fields]

/-! ### Words that are no instruction -/

/-- Settles O5: a rejected word has an unknown tag, a decoded one a known tag. -/
theorem undecodableWordsAreUnknownTags : Obligations.UndecodableWordsAreUnknownTags := by
  intro w
  constructor
  · intro hnone
    cases hd : decode w with
    | error e => exact le_tag_of_decode_error hd
    | ok i => exact absurd hd (hnone i)
  · intro htag i hd
    exact absurd (tag_le_of_decode hd) (Nat.not_le_of_lt htag)

/-- Settles O6: seventeen closed words. -/
theorem specWordsDecode : Obligations.SpecWordsDecode :=
  ⟨rfl, rfl, rfl, rfl, rfl, rfl, rfl, rfl, rfl, rfl, rfl, rfl, rfl, rfl, rfl, rfl, rfl⟩

end Sys2Proof.Machine
end

section
/-! PROOFS. The invariant (10_state.md R36, 20_memory.md R61, R62): it holds at reset, and every step
and the load port keep it. -/

namespace Sys2Proof.Machine

/-! ### What keeps the data store canonical -/

/-- An instruction leaves the data store as it is, or writes the one cell of an ST in range. -/
theorem ExecEffect.dmem_cases {i : Instr} {s t : State} (h : ExecEffect i s t) :
    t.dmem = s.dmem ∨ ∃ a b c, i = .st a b c ∧
      inBounds Config.dmemSize (effAddr s b c) = true ∧
      t.dmem = s.dmem.write (cellIndex (effAddr s b c)) (s.reg a) := by
  cases h with
  | stored a b c h hb => exact .inr ⟨a, b, c, h, hb, rfl⟩
  | halted | raisedTarget | raisedData | raisedDivide | unchanged | wrote | took | put | jumped =>
    exact .inl rfl

theorem ExecEffect.dmem_wf {i : Instr} {s t : State} (h : ExecEffect i s t)
    (hs : Memory.wf Config.dmemSize s.dmem) : Memory.wf Config.dmemSize t.dmem := by
  rcases h.dmem_cases with heq | ⟨a, b, c, _, hb, heq⟩ <;> rw [heq]
  · exact hs
  · exact Memory.wf_write _ _ _ _ hs (cellIndex_lt _ _ hb)

/-! ### Steps -/

theorem step_dmem_wf {s t : State} (h : step s = .next t)
    (hs : Memory.wf Config.dmemSize s.dmem) : Memory.wf Config.dmemSize t.dmem := by
  obtain ⟨_, ⟨f, rfl⟩ | ⟨i, _, _, he⟩⟩ := step_effect h
  · exact hs
  · exact he.dmem_wf hs

/-- The latch holds a kind exactly in Faulted (R36). -/
def LatchInStep (s : State) : Prop := s.faultKind = none ↔ s.runState ≠ .faulted

theorem latchInStep_raise (s : State) (f : FaultKind) : LatchInStep (s.raise f) := by
  simp [LatchInStep]

theorem ExecEffect.latchInStep {i : Instr} {s t : State} (h : ExecEffect i s t)
    (hr : s.runState = .running) (hs : LatchInStep s) : LatchInStep t := by
  have hnone : s.faultKind = none := hs.mpr (by rw [hr]; exact nofun)
  rcases h.status_cases with ⟨_, rfl⟩ | ⟨f, rfl⟩ | ⟨hrun, hlatch⟩
  · simp [LatchInStep, hnone]
  · exact latchInStep_raise s f
  · rwa [LatchInStep, hrun, hlatch]

theorem step_latchInStep {s t : State} (h : step s = .next t) (hs : LatchInStep s) :
    LatchInStep t := by
  obtain ⟨hr, ⟨f, rfl⟩ | ⟨i, _, _, he⟩⟩ := step_effect h
  · exact latchInStep_raise s f
  · exact he.latchInStep hr hs

/-- Settles O38: no step writes the instruction store, ST in range is the one write to the data store,
and run state and latch change together. -/
theorem invariantIsKept : Obligations.InvariantIsKept := by
  rintro s t ⟨himem, hdmem, hlatch⟩ h
  exact ⟨step_imem_eq h ▸ himem, step_dmem_wf h hdmem, step_latchInStep h hlatch⟩

/-! ### Reset and load port -/

theorem inv_setup (inp : List Word) : Inv (setup inp) :=
  ⟨Memory.wf_nil _, Memory.wf_nil _, by simp [setup, State.reset]⟩

/-- Settles O39: both stores are empty, the engine is Running and the latch is None; the reset itself is
the setup with no input. -/
theorem invariantHoldsAtReset : Obligations.InvariantHoldsAtReset :=
  ⟨inv_setup [], inv_setup⟩

/-- A load address names one of the 1024 cells by its width. -/
theorem inv_loadCell {s : State} (h : Inv s) (addr : BitVec 10) (data : InstrWord) :
    Inv (loadCell s addr data) := by
  obtain ⟨himem, hdmem, hlatch⟩ := h
  exact ⟨Memory.wf_write _ _ _ _ himem addr.isLt, hdmem, hlatch⟩

/-- Settles O52: read after write speaks for each instruction cell, and the invariant is
`inv_loadCell`. -/
theorem loadPortWritesOneCell : Obligations.LoadPortWritesOneCell := fun s addr data =>
  ⟨Memory.read_write_same s.imem _ data, fun k hk => Memory.read_write_of_ne s.imem _ k data hk,
    fun _ => rfl, fun _ _ => rfl, ⟨rfl, rfl⟩, ⟨rfl, rfl⟩, fun h => inv_loadCell h addr data⟩

end Sys2Proof.Machine
end

section
/-! PROOFS. `wrap` (00_scope.md R8), the effective address (20_memory.md R78), and how an instruction
uses its operands (30_encoding.md R102, R110; 41_rr_io_arith.md R160). -/

namespace Sys2Proof.Machine

/-! ### Arithmetic -/

/-- Settles O7: `wrap` keeps the residue modulo 2^32, and IntX holds one element of each residue. -/
theorem wrapIsTheCongruentElement : Obligations.WrapIsTheCongruentElement := by
  intro v
  have hcong : (wrap v).toInt % 2 ^ 32 = v % 2 ^ 32 := by
    rw [toInt_wrap]
    exact Int.bmod_emod
  refine ⟨toInt_intX _, hcong, fun u hlo hhi hu => ?_⟩
  have hrange := toInt_intX (wrap v)
  omega

/-- Settles O12: the address is `wrap` of the sum, and the corner cases are closed once the base's value
is known. -/
theorem effectiveAddressWraps : Obligations.EffectiveAddressWraps := by
  refine ⟨effAddr_eq_wrap, fun s b hb => ?_, fun s b hb => ?_⟩
  · rw [effAddr_eq_wrap, hb]
    rfl
  · rw [effAddr_eq_wrap, hb]
    rfl

/-! ### Operands -/

/-- Settles O26: the two-source form refuses what is no register index; HALT, IN and OUT do not look at
their third operand. -/
theorem illFormedThirdOperandIsRefused : Obligations.IllFormedThirdOperandIsRefused := by
  refine ⟨fun a b c s hc => ⟨?_, ?_, ?_, ?_⟩, fun a b c s => ⟨rfl, rfl, rfl⟩⟩
  · exact exec_twoSource_refused s (.inl rfl) hc
  · exact exec_twoSource_refused s (.inr (.inl rfl)) hc
  · exact exec_twoSource_refused s (.inr (.inr (.inl rfl))) hc
  · exact exec_twoSource_refused s (.inr (.inr (.inr rfl))) hc

/-- Settles O27: the four arms do not mention these operands. -/
theorem unusedOperandsHaveNoEffect : Obligations.UnusedOperandsHaveNoEffect :=
  fun _ _ _ _ _ _ _ => ⟨rfl, rfl, rfl, rfl⟩

/-- A register that is both sources and destination, not the pc, ends as f of its own old value. -/
theorem ComputesFromSources.reg_self {mk : Reg → Reg → Word → Instr} {f : Int → Int → Int}
    (h : ComputesFromSources mk f) {r : Reg} {c : Word} (s : State) (hr : r ≠ Config.pcReg)
    (hc : c.toInt = (r.val : Int)) :
    ∃ t, exec (mk r r c) s = .next t ∧ t.reg r = wrap (f (s.reg r).toInt (s.reg r).toInt) := by
  obtain ⟨t, hexec, ⟨hreg, _⟩, _⟩ := h r r r c s hc
  exact ⟨t, hexec, (hreg hr).1⟩

/-- Settles O28, from the results of ADD, SUB and MUL and the two arms of DIV. -/
theorem sourcesAreReadBeforeTheDestinationIsWritten :
    Obligations.SourcesAreReadBeforeTheDestinationIsWritten := by
  obtain ⟨_, _, hadd, hsub, hmul, _⟩ := addSubMulWriteTheWrappedResult
  intro r c s hr hc
  refine ⟨?add, ?sub, hmul.reg_self s hr hc, fun hne => ?quotient, fun hzero => ?byZero⟩
  case add =>
    rw [two_mul]
    exact hadd.reg_self s hr hc
  case sub =>
    obtain ⟨t, hexec, hreg⟩ := hsub.reg_self s hr hc
    rw [sub_self] at hreg
    exact ⟨t, hexec, hreg⟩
  case quotient =>
    refine ⟨_, exec_div_of_ne r r s hc hne, ?_⟩
    rw [State.reg_advance_of_ne _ r hr, State.reg_setReg_same, Int.tdiv_self hne]
    rfl
  case byZero => exact ⟨_, exec_div_of_eq_zero r r s hc hzero, raised_raise s _⟩

end Sys2Proof.Machine
end

section
/-! PROOFS. What each instruction touches (10_state.md R22, 20_memory.md R62): the registers it writes
and reads, the data cells it writes, and the pc after it (40_execution_cycle.md R136, R137). -/

namespace Sys2Proof.Machine

/-! ### Registers written -/

theorem regsKept_setReg_advance (s : State) (a : Reg) (v : Word) :
    RegsKept s (s.setReg a v).advance (some a) := by
  obtain ⟨_, _, hkept⟩ := writesReg_setReg_advance s a v
  exact hkept

/-- No effect of an instruction is on a register but the destination and the pc. -/
theorem ExecEffect.regsKept {i : Instr} {s t : State} (h : ExecEffect i s t) :
    RegsKept s t (destOf i) := by
  cases h with
  | halted | raisedTarget | raisedData | raisedDivide | unchanged => exact fun _ _ _ => rfl
  | wrote a v h => exact h ▸ regsKept_setReg_advance s a v
  | took a b c v rest h => exact h ▸ regsKept_setReg_advance (s.withInput rest) a v
  | put | stored => exact fun r hr _ => State.reg_advance_of_ne _ r hr
  | jumped => exact fun r hr _ => s.reg_setPc_of_ne r _ hr

/-- From Running, an instruction ends in Faulted by raising a fault and in no other way. -/
theorem ExecEffect.eq_raise_of_faulted {i : Instr} {s t : State} (h : ExecEffect i s t)
    (hs : s.runState = .running) (ht : t.runState = .faulted) : ∃ f, t = s.raise f := by
  rcases h.status_cases with ⟨_, rfl⟩ | hraise | ⟨hrun, _⟩
  · cases ht
  · exact hraise
  · rw [hrun, hs] at ht
    cases ht

/-- Settles O41: the effects by destination, and the raised fault, which writes no register. -/
theorem onlyTheDestinationRegisterIsWritten : Obligations.OnlyTheDestinationRegisterIsWritten := by
  intro i s t h
  have he := exec_effect i s t h
  refine ⟨he.regsKept, fun hs ht r => ?_⟩
  obtain ⟨f, rfl⟩ := he.eq_raise_of_faulted hs ht
  exact s.reg_raise f r

/-- Settles O34: the step that ends in Faulted has raised a fault, which touches only run state and
latch. -/
theorem faultsArePrecise : Obligations.FaultsArePrecise := by
  intro s t h ht
  obtain ⟨f, rfl⟩ : ∃ f, t = s.raise f := by
    obtain ⟨hs, hraise | ⟨i, _, _, he⟩⟩ := step_effect h
    · exact hraise
    · exact he.eq_raise_of_faulted hs ht
  exact ⟨rfl, rfl, rfl, rfl, rfl, rfl⟩

/-! ### Registers read

Every update of the state commutes with a write to a register r that it does not touch; an instruction
is made of such updates, on values that do not depend on r unless it reads r. -/

section Commute

variable (s : State) (r : Reg) (v : Word)

theorem State.setReg_comm {a : Reg} (u : Word) (h : a ≠ r) :
    (s.setReg r v).setReg a u = (s.setReg a u).setReg r v := by
  simp only [State.setReg]
  rw [Vector.set_comm _ _ (Fin.val_ne_of_ne h.symm)]

theorem State.setPc_setReg (u : Word) (h : r ≠ Config.pcReg) :
    (s.setReg r v).setPc u = (s.setPc u).setReg r v :=
  s.setReg_comm r v u h.symm

theorem State.advance_setReg (h : r ≠ Config.pcReg) :
    (s.setReg r v).advance = s.advance.setReg r v := by
  rw [State.advance, State.pc_setReg, if_neg h, State.setPc_setReg s r v _ h, State.advance]

/-- The advance of an ST: the register write commutes with it whatever the data store has become. -/
theorem State.advance_setReg_of_dmem (m : Memory 32) (h : r ≠ Config.pcReg) :
    State.advance { s.setReg r v with dmem := m } =
      (State.advance { s with dmem := m }).setReg r v :=
  State.advance_setReg { s with dmem := m } r v h

theorem State.raise_setReg (f : FaultKind) :
    (s.setReg r v).raise f = (s.raise f).setReg r v := rfl

theorem State.setReg_advance_comm {a : Reg} (u : Word) (h : r ≠ Config.pcReg) (ha : a ≠ r) :
    ((s.setReg r v).setReg a u).advance = ((s.setReg a u).advance).setReg r v := by
  rw [State.setReg_comm s r v u ha, State.advance_setReg _ r v h]

theorem effAddr_setReg {b : Reg} (c : Word) (hb : r ≠ b) :
    effAddr (s.setReg r v) b c = effAddr s b c := by
  rw [effAddr, State.reg_setReg_of_ne s r b v hb, effAddr]

/-- The two-source form on a changed register that is neither source. -/
theorem withSources_setReg {b : Reg} {c : Word} {k k' : Word → Word → Result}
    (hread : ¬ (r = b ∨ (r.val : Int) = c.toInt))
    (h : ∀ m n, k' m n = mapNext (·.setReg r v) (k m n)) :
    withSources (s.setReg r v) b c k' = mapNext (·.setReg r v) (withSources s b c k) := by
  obtain ⟨hb, hrc⟩ := not_or.mp hread
  rcases withSources_cases s b c k with ⟨hc, hs⟩ | ⟨q, hc, hs⟩ <;> rw [hs]
  · rw [withSources_refused _ b c k' hc, mapNext_refused]
  · have hq : r ≠ q := fun h => hrc (h ▸ hc.symm)
    rw [withSources_of_reg _ b q c k' hc, h, State.reg_setReg_of_ne s r b v hb,
      State.reg_setReg_of_ne s r q v hq]

/-- A branch on a changed register that is neither tested nor its base. -/
theorem branchOn_setReg (k : Cond) {a b : Reg} (c : Word) (h : r ≠ Config.pcReg)
    (hread : ¬ (r = a ∨ r = b)) :
    branchOn k a b c (s.setReg r v) = mapNext (·.setReg r v) (branchOn k a b c s) := by
  obtain ⟨ha, hb⟩ := not_or.mp hread
  have haddr := effAddr_setReg s r v c hb
  have hreg := State.reg_setReg_of_ne s r a v ha
  rcases branchOn_cases k a b c s with ⟨hin, hs⟩ | ⟨hin, hk, hs⟩ | ⟨hin, hk, hs⟩ <;>
    rw [hs, mapNext_next]
  · rw [← haddr] at hin
    exact branchOn_of_not_inBounds k a b c _ hin
  · rw [← haddr] at hin
    rw [← hreg] at hk
    rw [branchOn_of_holds k a b c _ hin hk, haddr, State.setPc_setReg s r v _ h]
  · rw [← haddr] at hin
    rw [← hreg] at hk
    exact branchOn_of_not_holds k a b c _ hin hk

/-- An instruction on a changed register that it neither reads nor writes. -/
theorem exec_setReg (i : Instr) (h : r ≠ Config.pcReg) (hread : ¬ readsReg i r)
    (hdest : destOf i ≠ some r) :
    exec i (s.setReg r v) = mapNext (·.setReg r v) (exec i s) := by
  have hwrite {a : Reg} (ha : destOf i = some a) (p : State) (u : Word) :
      ((p.setReg r v).setReg a u).advance = ((p.setReg a u).advance).setReg r v :=
    p.setReg_advance_comm r v u h fun har => hdest (har ▸ ha)
  cases i with
  | halt a b c => rfl
  | inp a b c =>
    cases hin : s.input with
    | nil =>
      rw [exec_inp_nil a b c s hin, mapNext_next]
      exact exec_inp_nil a b c (s.setReg r v) hin
    | cons u rest =>
      rw [exec_inp_cons a b c s u rest hin, exec_inp_cons a b c (s.setReg r v) u rest hin]
      exact congrArg _ (hwrite rfl (s.withInput rest) u)
  | out a b c =>
    rw [exec_out, exec_out, State.reg_setReg_of_ne s r a v hread, mapNext_next]
    exact congrArg _ (State.advance_setReg (putOutput s (s.reg a)) r v h)
  | add a b c =>
    rw [exec_add, exec_add]
    exact withSources_setReg s r v hread fun _ _ => congrArg _ (hwrite rfl s _)
  | sub a b c =>
    rw [exec_sub, exec_sub]
    exact withSources_setReg s r v hread fun _ _ => congrArg _ (hwrite rfl s _)
  | mul a b c =>
    rw [exec_mul, exec_mul]
    exact withSources_setReg s r v hread fun _ _ => congrArg _ (hwrite rfl s _)
  | div a b c =>
    rw [exec_div, exec_div]
    refine withSources_setReg s r v hread fun n d => ?_
    split
    · rfl
    · exact congrArg _ (hwrite rfl s _)
  | ld a b c =>
    have haddr := effAddr_setReg s r v c hread
    cases hb : inBounds Config.dmemSize (effAddr s b c) with
    | false =>
      rw [exec_ld_of_not_inBounds a b c s hb, exec_ld_of_not_inBounds a b c _ (haddr ▸ hb)]
      rfl
    | true =>
      rw [exec_ld_of_inBounds a b c s hb, exec_ld_of_inBounds a b c _ (haddr ▸ hb), haddr]
      exact congrArg _ (hwrite rfl s _)
  | st a b c =>
    obtain ⟨hra, hrb⟩ := not_or.mp hread
    have haddr := effAddr_setReg s r v c hrb
    cases hb : inBounds Config.dmemSize (effAddr s b c) with
    | false =>
      rw [exec_st_of_not_inBounds a b c s hb, exec_st_of_not_inBounds a b c _ (haddr ▸ hb)]
      rfl
    | true =>
      rw [exec_st_of_inBounds a b c s hb, exec_st_of_inBounds a b c _ (haddr ▸ hb), haddr,
        State.reg_setReg_of_ne s r a v hra]
      exact congrArg _ (s.advance_setReg_of_dmem r v _ h)
  | lda a b c =>
    rw [exec_lda, exec_lda, effAddr_setReg s r v c hread]
    exact congrArg _ (hwrite rfl s _)
  | ldc a b c => exact congrArg _ (hwrite rfl s c)
  | jlt | jle | jgt | jge | jeq | jne => exact branchOn_setReg s r v _ _ h hread

end Commute

/-- Settles O42, by `exec_setReg`. -/
theorem onlyTheSourceRegistersAreRead : Obligations.OnlyTheSourceRegistersAreRead :=
  fun i s r v h hread hdest => exec_setReg s r v i h hread hdest

/-! ### Data cells -/

/-- Settles O43: an instruction leaves the data store as it is, or is an ST and writes its one cell. -/
theorem onlyStWritesTheDataStore : Obligations.OnlyStWritesTheDataStore := by
  refine ⟨fun i s t hi h k _ => ?_, fun a b c s t h k hk => ?_⟩
  · rcases (exec_effect i s t h).dmem_cases with heq | ⟨a, b, c, hst, _⟩
    · rw [heq]
    · exact absurd hst (hi a b c)
  · rcases (exec_effect _ s t h).dmem_cases with heq | ⟨a', b', c', hst, _, heq⟩ <;> rw [heq]
    cases hst
    exact Memory.read_write_of_ne s.dmem _ k _ hk

/-! ### The pc -/

/-- A branch's next state has the pc as it was or at the target. -/
theorem pc_of_exec_branch {i : Instr} {s t : State} (hi : branchCond i ≠ none)
    (h : exec i s = .next t) : t.pc = s.pc ∨ t.pc = addrOf i s := by
  obtain ⟨k, hk⟩ := Option.ne_none_iff_exists'.mp hi
  rw [exec_branch s i k hk] at h
  rcases branchOn_cases k i.operands.1 i.operands.2.1 i.operands.2.2 s with
    ⟨_, hs⟩ | ⟨_, _, hs⟩ | ⟨_, _, hs⟩ <;> rw [hs] at h <;> cases h
  · exact .inl (s.pc_raise _)
  · exact .inr (s.pc_setPc _)
  · exact .inl rfl

/-- A result in a register other than the pc leaves the pc's advance as it is. -/
theorem State.pc_setReg_advance (s : State) {a : Reg} (v : Word) (ha : a ≠ Config.pcReg) :
    (s.setReg a v).advance.pc = wrap (s.pc.toInt + 1) := by
  rw [State.pc_advance, State.pc_setReg, if_neg ha]

/-- A non-branch that keeps the engine Running and does not write x[7] is a blocked IN or advances. -/
theorem ExecEffect.pc_of_not_branch {i : Instr} {s t : State} (h : ExecEffect i s t)
    (ht : t.runState = .running) (hi : branchCond i = none)
    (hdest : destOf i ≠ some Config.pcReg) :
    ((∃ a b c, i = .inp a b c) ∧ s.input = [] ∧ t = s) ∨ t.pc = wrap (s.pc.toInt + 1) := by
  cases h with
  | halted | raisedTarget | raisedData | raisedDivide => cases ht
  | unchanged h =>
    rcases h with ⟨a, b, c, hinp, hin⟩ | ⟨k, hk, _⟩
    · exact .inl ⟨⟨a, b, c, hinp⟩, hin, rfl⟩
    · rw [hi] at hk
      cases hk
  | wrote a v h => exact .inr (s.pc_setReg_advance v fun ha => hdest (ha ▸ h))
  | took a b c v rest h =>
    have ha : a ≠ Config.pcReg := fun ha => hdest (by rw [h, ha]; rfl)
    exact .inr ((s.withInput rest).pc_setReg_advance v ha)
  | put | stored => exact .inr (State.pc_advance _)
  | jumped k h =>
    rw [hi] at h
    cases h

/-- Settles O45: a branch by its handler's three ends, every other opcode by its effects. -/
theorem pcAdvancesByOpcodeClass : Obligations.PcAdvancesByOpcodeClass :=
  fun i s t _ h ht => ⟨fun hi => pc_of_exec_branch hi h,
    fun hi hdest => (exec_effect i s t h).pc_of_not_branch ht hi hdest⟩

end Sys2Proof.Machine
end

section
/-! PROOFS. The step at a fetched instruction (40_execution_cycle.md R130, R134), the arrival of an input
value (60_exceptions.md R223), and the run past the last cell (70_reset_and_hazards.md R266). -/

namespace Sys2Proof.Machine

/-- Settles O29, by `step_of_decode`. -/
theorem stepRunsTheDecodedInstruction : Obligations.StepRunsTheDecodedInstruction :=
  step_of_decode

/-! ### The arrival of an input value -/

theorem step_of_halted {s : State} (h : s.runState = .halted) : step s = .fault .engineHalted := by
  simp [step, h]

theorem step_of_faulted {s : State} (h : s.runState = .faulted) :
    step s = .fault .engineFaulted := by
  simp [step, h]

section Arrival

variable (s : State) (vs : List Word)

theorem fetchInstr_supplyInput : fetchInstr (supplyInput s vs) = fetchInstr s := rfl

/-- An instruction that takes no input leaves the arrived values where they would arrive after it. -/
theorem exec_supplyInput_of_not_inp {i : Instr} (hi : ∀ a b c, i ≠ .inp a b c) :
    exec i (supplyInput s vs) = mapNext (supplyInput · vs) (exec i s) := by
  refine (exec_withInput s (s.input ++ vs) i hi).trans ?_
  cases h : exec i s with
  | fault | refused => rfl
  | next t =>
    have hin : t.input = s.input :=
      (exec_effect i s t h).input_cases.resolve_right fun ⟨a, b, c, _, hinp, _⟩ => hi a b c hinp
    rw [mapNext_next, mapNext_next, State.withInput, supplyInput, hin]

/-- An IN with a value waiting takes that value, whatever arrives behind it. -/
theorem exec_inp_supplyInput (a b : Reg) (c : Word) (h : s.input ≠ []) :
    exec (.inp a b c) (supplyInput s vs) = mapNext (supplyInput · vs) (exec (.inp a b c) s) := by
  obtain ⟨v, rest, hin⟩ := List.exists_cons_of_ne_nil h
  have hin' : (supplyInput s vs).input = v :: (rest ++ vs) := by
    rw [supplyInput_input, hin, List.cons_append]
  rw [exec_inp_cons a b c s v rest hin, exec_inp_cons a b c _ v _ hin']
  rfl

theorem exec_supplyInput {i : Instr} (h : ¬ (s.input = [] ∧ ∃ a b c, i = .inp a b c)) :
    exec i (supplyInput s vs) = mapNext (supplyInput · vs) (exec i s) := by
  by_cases hi : ∃ a b c, i = .inp a b c
  · obtain ⟨a, b, c, rfl⟩ := hi
    exact exec_inp_supplyInput s vs a b c fun hin => h ⟨hin, a, b, c, rfl⟩
  · exact exec_supplyInput_of_not_inp s vs fun a b c hinp => hi ⟨a, b, c, hinp⟩

end Arrival

/-- Settles O49: an arrival changes neither the run state nor the fetch, so the step does the same thing;
what it does commutes with the arrival unless it is a blocked IN. -/
theorem inputArrivalMattersOnlyToABlockedIn : Obligations.InputArrivalMattersOnlyToABlockedIn := by
  intro s vs hnot
  rcases step_cases s with ⟨hr, hs⟩ | ⟨hr, hs⟩ | ⟨hr, f, hf, hs⟩ | ⟨hr, i, hf, hs⟩ <;> rw [hs]
  · exact step_of_halted hr
  · exact step_of_faulted hr
  · exact step_of_fetchInstr_error hr ((fetchInstr_supplyInput s vs).trans hf)
  · obtain ⟨hfetch, hd⟩ := fetching_of_fetchInstr hr hf
    rw [step_supplyInput_of_decode hfetch hd]
    refine exec_supplyInput s vs fun ⟨hin, a, b, c, hinp⟩ => ?_
    exact hnot ⟨hfetch, hin, a, b, c, hinp ▸ hd⟩

/-! ### Past the last cell -/

/-- Settles O50: the instruction advances the pc to 1024, and the fetch there fails. -/
theorem runningOffTheEndFaults : Obligations.RunningOffTheEndFaults := by
  intro i s t hfetch hpc hd hi hdest h ht hne
  rw [step_of_decode s i hfetch hd] at h
  have hend : t.pc.toInt = 1024 := by
    rcases (exec_effect i s t h).pc_of_not_branch ht hi hdest with ⟨_, _, heq⟩ | hadv
    · exact absurd heq hne
    · rw [hadv, hpc]
      rfl
  refine ⟨hend, fetchOutOfRangeFaults.2 t ht ?_⟩
  omega

end Sys2Proof.Machine
end

section
/-! PROOFS. Loader and boot (30_encoding.md section 7, 70_reset_and_hazards.md section 2): the checks on a
record (R116), the text as records (R113, R119), where the boot puts them (R117), and that the image is
well-formed (R109), so that no run is refused (R110). -/

namespace Sys2Proof.Machine

/-! ### One record -/

/-- Every mnemonic stands for a constructor that keeps its operands. -/
theorem operands_of_mnemonicLookup {name : List Char} {mk : Reg → Reg → Word → Instr}
    (h : mnemonicLookup name = some mk) (a b : Reg) (c : Word) :
    (mk a b c).operands = (a, b, c) := by
  have hrows : ∀ row ∈ mnemonicTable, (row.2 a b c).operands = (a, b, c) := by
    simp [mnemonicTable, Instr.operands]
  obtain ⟨n, _, hrow⟩ := mem_mnemonicTable_of_lookup name mk h
  exact hrows _ hrow

/-- Well-formed: only the RR class asks something of the third operand. -/
theorem wellFormed_iff (i : Instr) :
    i.wellFormed = true ↔ (i.addrClass = .rr → isRegIndex i.operands.2.2.toInt = true) := by
  unfold Instr.wellFormed
  cases i.addrClass <;> simp

/-- The integers of a record are in IntX, so `wrap` keeps them. -/
theorem toInt_wrap_of_intToken {tok : List Char} {v : Int} (h : intToken tok = some v) :
    (wrap v).toInt = v := by
  obtain ⟨⟨hlo, hhi⟩, _⟩ := (intToken_eq_some_iff tok v).mp h
  exact toInt_wrap_of_intX hlo hhi

/-- The third operand of a record's instruction, as the loader checks it. -/
theorem wellFormed_of_tokens {name tc : List Char} {mk : Reg → Reg → Word → Instr} {c : Int}
    (hmk : mnemonicLookup name = some mk) (hc : intToken tc = some c) (a b : Reg) :
    (mk a b (wrap c)).wellFormed = true ↔
      ((mk a b (wrap c)).addrClass = .rr → 0 ≤ c ∧ c < 8) := by
  rw [wellFormed_iff, operands_of_mnemonicLookup hmk, toInt_wrap_of_intToken hc, isRegIndex_iff]

/-- An accepted record has a known mnemonic and three integers. -/
theorem exists_tokens_of_assembleRecord {name ta tb tc : List Char} {i : Instr}
    (h : assembleRecord name ta tb tc = .ok i) :
    ∃ mk a b c, mnemonicLookup name = some mk ∧ intToken ta = some a ∧ intToken tb = some b ∧
      intToken tc = some c := by
  obtain ⟨ha, hb, hc⟩ := intToken_ne_none_of_assembleRecord h
  have hmk : mnemonicLookup name ≠ none := fun hnone => by
    rw [assembleRecord_of_unknown hnone] at h
    cases h
  obtain ⟨mk, hmk⟩ := Option.ne_none_iff_exists'.mp hmk
  obtain ⟨a, ha⟩ := Option.ne_none_iff_exists'.mp ha
  obtain ⟨b, hb⟩ := Option.ne_none_iff_exists'.mp hb
  obtain ⟨c, hc⟩ := Option.ne_none_iff_exists'.mp hc
  exact ⟨mk, a, b, c, hmk, ha, hb, hc⟩

/-- Behind a known mnemonic and three integers stand the range checks alone. -/
theorem assembleRecord_eq_ok_iff_of_tokens {name ta tb tc : List Char}
    {mk : Reg → Reg → Word → Instr} {a b c : Int} (hmk : mnemonicLookup name = some mk)
    (ha : intToken ta = some a) (hb : intToken tb = some b) (hc : intToken tc = some c)
    (i : Instr) :
    assembleRecord name ta tb tc = .ok i ↔
      (0 ≤ a ∧ a < 8) ∧ (0 ≤ b ∧ b < 8) ∧
        i = mk (Fin.ofNat 8 a.toNat) (Fin.ofNat 8 b.toNat) (wrap c) ∧
        (i.addrClass = .rr → 0 ≤ c ∧ c < 8) := by
  have hwf := wellFormed_of_tokens hmk hc (Fin.ofNat 8 a.toNat) (Fin.ofNat 8 b.toNat)
  simp only [assembleRecord, hmk, ha, hb, hc, ite_eq_iff, Bool.and_eq_true, isRegIndex_iff, hwf,
    Except.ok.injEq, reduceCtorEq, and_false, or_false]
  constructor
  · rintro ⟨⟨⟨har, hbr⟩, hcr⟩, rfl⟩
    exact ⟨har, hbr, rfl, hcr⟩
  · rintro ⟨har, hbr, rfl, hcr⟩
    exact ⟨⟨⟨har, hbr⟩, hcr⟩, rfl⟩

/-- Settles O53: the lookups that an accepted record must pass, and the range checks behind them. -/
theorem loaderAcceptsExactlyTheCheckedRecords :
    Obligations.LoaderAcceptsExactlyTheCheckedRecords := by
  intro name ta tb tc i
  constructor
  · intro h
    obtain ⟨mk, a, b, c, hmk, ha, hb, hc⟩ := exists_tokens_of_assembleRecord h
    exact ⟨mk, a, b, c, hmk, ha, hb, hc,
      (assembleRecord_eq_ok_iff_of_tokens hmk ha hb hc i).mp h⟩
  · rintro ⟨mk, a, b, c, hmk, ha, hb, hc, hchecks⟩
    exact (assembleRecord_eq_ok_iff_of_tokens hmk ha hb hc i).mpr hchecks

theorem wellFormed_of_assembleRecord {name ta tb tc : List Char} {i : Instr}
    (h : assembleRecord name ta tb tc = .ok i) : i.wellFormed = true := by
  obtain ⟨mk, a, b, c, hmk, _, _, hc, _, _, rfl, hrr⟩ :=
    (loaderAcceptsExactlyTheCheckedRecords name ta tb tc i).mp h
  exact (wellFormed_of_tokens hmk hc _ _).mpr hrr

/-! ### The text as records -/

/-- The token stream cut at white space, empty pieces dropped; `cur` is what is read of the first
piece. -/
theorem tokensFrom_eq (cur text : List Char) :
    tokensFrom cur text =
      (List.splitOnPPrepend Char.isWhitespace text cur.reverse).filter fun tok => !tok.isEmpty := by
  induction text generalizing cur with
  | nil => cases cur <;> simp [tokensFrom]
  | cons ch rest ih =>
    cases hws : ch.isWhitespace with
    | true =>
      rw [List.splitOnPPrepend_cons_pos hws, List.reverse_reverse, List.filter_cons,
        List.splitOnP_eq_splitOnPPrepend, ← List.reverse_nil, ← ih]
      cases cur <;> simp [tokensFrom, hws]
    | false =>
      rw [List.splitOnPPrepend_cons_neg hws, tokensFrom, if_neg (by simp [hws]), ih,
        List.reverse_append, List.reverse_singleton, List.singleton_append]

theorem assemble_eq_ok_nil_iff (toks : List (List Char)) : assemble toks = .ok [] ↔ toks = [] := by
  unfold assemble
  constructor
  · intro h
    split at h
    · rfl
    · split at h
      · cases h
      · split at h <;> cases h
    · split at h <;> cases h
  · rintro rfl
    rfl

/-- A program of one instruction or more begins with an accepted record. -/
theorem assemble_eq_ok_cons_iff (toks : List (List Char)) (i : Instr) (is : List Instr) :
    assemble toks = .ok (i :: is) ↔ ∃ name ta tb tc rest, toks = name :: ta :: tb :: tc :: rest ∧
      assembleRecord name ta tb tc = .ok i ∧ assemble rest = .ok is := by
  constructor
  · intro h
    unfold assemble at h
    split at h
    · cases h
    · next name ta tb tc rest =>
      split at h
      · cases h
      · next j hrec =>
        split at h
        · cases h
        · next js hrest =>
          cases h
          exact ⟨name, ta, tb, tc, rest, rfl, hrec, hrest⟩
    · split at h <;> cases h
  · rintro ⟨name, ta, tb, tc, rest, rfl, hrec, hrest⟩
    simp [assemble, hrec, hrest]

/-- The tokens of one record: a mnemonic and three integers. -/
abbrev RecordTokens := List Char × List Char × List Char × List Char

/-- The record is accepted as instruction i. -/
def AssemblesTo (r : RecordTokens) (i : Instr) : Prop :=
  assembleRecord r.1 r.2.1 r.2.2.1 r.2.2.2 = .ok i

/-- The tokens of records, one record after the other. -/
def recordStream (records : List RecordTokens) : List (List Char) :=
  records.flatMap fun r => [r.1, r.2.1, r.2.2.1, r.2.2.2]

/-- A token stream assembles exactly as whole records that are each accepted. -/
theorem assemble_eq_ok_iff (toks : List (List Char)) (is : List Instr) :
    assemble toks = .ok is ↔
      ∃ records, toks = recordStream records ∧ List.Forall₂ AssemblesTo records is := by
  induction is generalizing toks with
  | nil => simp [assemble_eq_ok_nil_iff, recordStream]
  | cons i is ih =>
    rw [assemble_eq_ok_cons_iff]
    constructor
    · rintro ⟨name, ta, tb, tc, rest, rfl, hrec, hrest⟩
      obtain ⟨records, rfl, hall⟩ := (ih rest).mp hrest
      exact ⟨(name, ta, tb, tc) :: records, rfl, .cons hrec hall⟩
    · rintro ⟨_, rfl, hall⟩
      cases hall with
      | @cons r _ records _ hrec hall =>
        exact ⟨r.1, r.2.1, r.2.2.1, r.2.2.2, recordStream records, rfl, hrec,
          (ih _).mpr ⟨records, rfl, hall⟩⟩

/-- Settles O59: the cut is `tokensFrom_eq`, the reading in fours `assemble_eq_ok_iff`, and the boot fails
exactly as the loading fails. -/
theorem loaderReadsTheTextAsRecords : Obligations.LoaderReadsTheTextAsRecords := by
  refine ⟨fun text => tokensFrom_eq [] text.toList, fun text is => ?_, fun text inp => ?_⟩
  · rw [loadProgram_eq_ok_iff, and_comm, assemble_eq_ok_iff]
    rfl
  · simp only [boot_eq_ok_iff]
    constructor
    · rintro ⟨_, is, hload, _⟩
      exact ⟨is, hload⟩
    · rintro ⟨is, hload⟩
      exact ⟨_, is, hload, rfl⟩

/-- Every instruction of an assembled program is well-formed. -/
theorem wellFormed_of_assemble {toks : List (List Char)} {is : List Instr}
    (h : assemble toks = .ok is) : ∀ i ∈ is, i.wellFormed = true := by
  induction is generalizing toks with
  | nil => exact fun i hi => absurd hi List.not_mem_nil
  | cons j js ih =>
    obtain ⟨name, ta, tb, tc, rest, _, hrec, hrest⟩ := (assemble_eq_ok_cons_iff toks j js).mp h
    intro i hi
    rcases List.mem_cons.mp hi with rfl | hi
    · exact wellFormed_of_assembleRecord hrec
    · exact ih hrest i hi

/-! ### Words into consecutive cells -/

/-- A load address below 1024 is kept by the ten bits of the port. -/
theorem toNat_loadAddr {k : Nat} (hk : k < 1024) : (BitVec.ofNat 10 k).toNat = k := by
  rw [BitVec.toNat_ofNat, Nat.mod_eq_of_lt hk]

theorem imem_read_loadCell_same (s : State) {k : Nat} (hk : k < 1024) (w : InstrWord) :
    (loadCell s (BitVec.ofNat 10 k) w).imem.read k = w := by
  rw [loadCell, toNat_loadAddr hk, Memory.read_write_same]

theorem imem_read_loadCell_of_ne (s : State) {k j : Nat} (hk : k < 1024) (hj : j ≠ k)
    (w : InstrWord) : (loadCell s (BitVec.ofNat 10 k) w).imem.read j = s.imem.read j := by
  rw [loadCell, toNat_loadAddr hk]
  exact Memory.read_write_of_ne s.imem k j w hj

/-- Cells below or above the loaded ones keep their word. -/
theorem imem_read_loadWords_outside (s : State) {k j : Nat} {ws : List InstrWord}
    (hfit : k + ws.length ≤ 1024) (hj : j < k ∨ k + ws.length ≤ j) :
    (loadWords s k ws).imem.read j = s.imem.read j := by
  induction ws generalizing s k with
  | nil => rfl
  | cons w ws ih =>
    rw [List.length_cons] at hfit hj
    rw [loadWords, ih _ (by omega) (by omega)]
    exact imem_read_loadCell_of_ne s (by omega) (by omega) w

/-- The j-th word goes into the j-th cell from k on. -/
theorem imem_read_loadWords (s : State) {k j : Nat} {ws : List InstrWord}
    (hfit : k + ws.length ≤ 1024) (hj : j < ws.length) :
    (loadWords s k ws).imem.read (k + j) = ws[j] := by
  induction ws generalizing s k j with
  | nil => cases hj
  | cons w ws ih =>
    rw [List.length_cons] at hfit hj
    rw [loadWords]
    cases j with
    | zero =>
      rw [imem_read_loadWords_outside _ (by omega) (by omega)]
      exact imem_read_loadCell_same s (by omega) w
    | succ j =>
      rw [List.getElem_cons_succ, ← Nat.add_assoc, Nat.add_right_comm]
      exact ih _ (by omega) (by omega)

theorem inv_loadWords {s : State} (h : Inv s) (k : Nat) (ws : List InstrWord) :
    Inv (loadWords s k ws) := by
  induction ws generalizing s k with
  | nil => exact h
  | cons w ws ih => exact ih (inv_loadCell h _ w) (k + 1)

/-! ### The boot -/

/-- Settles O54: the words are the records' encodings in order, and loading writes instruction cells
alone. -/
theorem bootPlacesRecordsInOrder : Obligations.BootPlacesRecordsInOrder := by
  intro text inp s h
  obtain ⟨is, hload, rfl⟩ := (boot_eq_ok_iff text inp s).mp h
  obtain ⟨hasm, hlen⟩ := (loadProgram_eq_ok_iff text is).mp hload
  have hwords : (is.map encode).length = is.length := List.length_map _
  refine ⟨is, hasm, hlen, fun k hk => ?inside, fun k hk => ?outside, ?rest,
    inv_loadWords (inv_setup inp) 0 _⟩
  case inside =>
    have hcell := imem_read_loadWords (setup inp) (k := 0) (j := k) (ws := is.map encode)
      (by omega) (by omega)
    rwa [Nat.zero_add, List.getElem_map] at hcell
  case outside => exact imem_read_loadWords_outside _ (by omega) (by omega)
  case rest =>
    rw [loadWords_eq]
    rfl

/-- Settles O55: a cell holds the word of an accepted record, or HALT 0 0 0. -/
theorem loaderImagesAreWellFormed : Obligations.LoaderImagesAreWellFormed := by
  intro text inp s h k _
  obtain ⟨is, hasm, _, hinside, houtside, _⟩ := bootPlacesRecordsInOrder text inp s h
  rw [cellWellFormed_iff]
  rcases Nat.lt_or_ge k is.length with hk | hk
  · rw [hinside k hk]
    exact ⟨is[k], decodeOfEncode _, wellFormed_of_assemble hasm _ (List.getElem_mem hk)⟩
  · rw [houtside k hk]
    exact ⟨.halt 0 0 0, decode_zero, rfl⟩

/-! ### Runs of loaded programs -/

/-- If every step keeps P and P rules out a refused step, no run is refused. -/
theorem runSteps_ne_refused {P : State → Prop} (hstep : ∀ s t, P s → step s = .next t → P t)
    (hno : ∀ s r, P s → step s ≠ .refused r) (n : Nat) {s : State} (hs : P s) (r : Refusal) :
    runSteps n s ≠ .refused r := by
  induction n generalizing s with
  | zero => exact nofun
  | succ n ih =>
    cases hu : step s with
    | next u =>
      rw [runSteps_succ_of_next n s u hu]
      exact ih (hstep s u hs hu)
    | fault f =>
      rw [runSteps_succ_of_fault n s f hu]
      exact nofun
    | refused q => exact absurd hu (hno s q hs)

/-- Settles O56: a loaded image is well-formed, a step keeps it so and is not refused, and the latch is
clear at boot. -/
theorem loadedProgramsNeverRefuse : Obligations.LoadedProgramsNeverRefuse := by
  intro text inp s n h
  have himage : WellFormedImage s := loaderImagesAreWellFormed text inp s h
  have hlatch : s.faultKind = none := by
    obtain ⟨is, _, rfl⟩ := (boot_eq_ok_iff text inp s).mp h
    rw [loadWords_eq]
    rfl
  refine ⟨runSteps_ne_refused (fun _ _ hs => hs.of_step) (fun _ r hs => hs.step_ne_refused r) n
    himage, fun t ht => ?_⟩
  exact (runSteps_keeps
    (P := fun u => WellFormedImage u ∧ u.faultKind ≠ some .noSuchInstruction)
    (fun _ _ ⟨hs, hl⟩ hstep => ⟨hs.of_step hstep, hs.faultKind_ne_noSuchInstruction hl hstep⟩) n
    ⟨himage, by simp [hlatch]⟩ ht).2

end Sys2Proof.Machine
end
